-- ==== Sys2Proof/Word.lean ====
section
/-! DEFINITION. The word types of the LS8 core (R7, R13, R17): bytes, the 9-bit program counter, register indices. -/

namespace Sys2Proof

/-- A byte: an unsigned 8-bit value (R8, R14). -/
abbrev Byte := BitVec 8

/-- The program counter's type: 9 bits (R17, D4). -/
abbrev PcWord := BitVec 9

/-- The index of one of the eight registers (R13). -/
abbrev RegIdx := Fin 8

/-- `SP_INDEX`: the register used as stack pointer (R7, R15). -/
abbrev spIndex : RegIdx := 7

end Sys2Proof
end

