-- ==== Sys2Proof/Config.lean ====
section
/-! DEFINITION. The configuration of the block (R7, R28): what the opcode table maps to, and the parameters
`MEM_SIZE`, `STACK_TOP`, `BUDGET`, `OPCODE_MAP`. The values for this hardware are `Config.default` in Decode.lean,
beside the opcode table. The spec leaves no value free, so no opaque constant is declared. -/

namespace Sys2Proof

/-- The operation kinds of the ALU (R73). `other` is a kind outside the three the ALU supports; only an opcode map
other than the default one can route it there (R74, D18). -/
inductive AluOp where
  | add
  | mul
  | cmp
  | other (kind : Nat)
deriving DecidableEq, Repr

/-- The handlers an opcode can select: the second half of a row of the opcode table (R11, R47). -/
inductive Handler where
  | hlt
  | ret
  | push
  | pop
  | prn
  | call
  | jmp
  | jeq
  | jne
  | ldi
  | alu (op : AluOp)
deriving DecidableEq, Repr

/-- `OPCODE_MAP`: the static mapping from an opcode byte to its handler, whose format fixes the operand count
(R7, R47, R52). A byte with no row is an illegal opcode (R55). -/
abbrev OpcodeMap := List (Byte × Handler)

/-- The parameters of R7 that a model takes as arguments. -/
structure Config where
  /-- `MEM_SIZE`, N: the number of memory cells. -/
  memSize : Nat
  /-- `STACK_TOP`, T: the reset value of R7 and the reserved initial top of stack. -/
  stackTop : Byte
  /-- `BUDGET`: the optional step budget. -/
  budget : Option Nat
  /-- `OPCODE_MAP`. -/
  opcodeMap : OpcodeMap
deriving DecidableEq, Repr

/-- The ranges R7 gives the parameters: `3 <= N <= 256`, `1 <= T <= N - 2`, and an opcode map that has at most one
row for a byte (a mapping, R47). -/
abbrev Config.wf (c : Config) : Prop :=
  3 ≤ c.memSize ∧ c.memSize ≤ 256 ∧ 1 ≤ c.stackTop.toNat ∧ c.stackTop.toNat + 2 ≤ c.memSize ∧
    (c.opcodeMap.map Prod.fst).Nodup

end Sys2Proof
end

