-- ==== Sys2Proof/Syntax.lean ====
section
/-! DEFINITION. The thirteen instructions (R2), one constructor per row of spec/opcode_table.json. An operand is the
whole operand byte, as fetched (R49, R50): a register operand is a well-formed one only below 8 (WellFormed.lean). -/

namespace Sys2Proof

/-- The instruction set of R2, with the operands of R48. -/
inductive Instr where
  /-- `HLT` (R94), format N. -/
  | hlt
  /-- `RET` (R84), format N. -/
  | ret
  /-- `PUSH r` (R81), format R. -/
  | push (r : Byte)
  /-- `POP r` (R82), format R. -/
  | pop (r : Byte)
  /-- `PRN r` (R93), format R. -/
  | prn (r : Byte)
  /-- `CALL r` (R83), format R. -/
  | call (r : Byte)
  /-- `JMP r` (R89), format R. -/
  | jmp (r : Byte)
  /-- `JEQ r` (R90), format R. -/
  | jeq (r : Byte)
  /-- `JNE r` (R91), format R. -/
  | jne (r : Byte)
  /-- `LDI r, v` (R92), format RI. -/
  | ldi (r v : Byte)
  /-- `ADD ra, rb` (R76), format RR. -/
  | add (ra rb : Byte)
  /-- `MUL ra, rb` (R77), format RR. -/
  | mul (ra rb : Byte)
  /-- `CMP ra, rb` (R78), format RR. -/
  | cmp (ra rb : Byte)
deriving DecidableEq, Repr

end Sys2Proof
end

