-- ==== Sys2Proof/WellFormed.lean ====
section
/-! DEFINITION. Well-formed instructions: every register operand is a register index (R50). The immediate of `LDI` is
not checked: every byte is a legal immediate (R65). -/

namespace Sys2Proof

/-- R50: a register operand byte names a register exactly when it is below 8; no high bit is ignored. -/
def isRegIndex (b : Byte) : Bool := decide (b.toNat < 8)

/-- Every register operand of the instruction is a register index (R50, R65). -/
def WellFormed : Instr → Bool
  | .hlt => true
  | .ret => true
  | .push r => isRegIndex r
  | .pop r => isRegIndex r
  | .prn r => isRegIndex r
  | .call r => isRegIndex r
  | .jmp r => isRegIndex r
  | .jeq r => isRegIndex r
  | .jne r => isRegIndex r
  | .ldi r _ => isRegIndex r
  | .add ra rb => isRegIndex ra && isRegIndex rb
  | .mul ra rb => isRegIndex ra && isRegIndex rb
  | .cmp ra rb => isRegIndex ra && isRegIndex rb

end Sys2Proof
end

