-- ==== Sys2Proof/Decode.lean ====
section
/-! DEFINITION. The opcode table of R52, the decoder (R47 to R56), the decoder's control signals (R54), and the
encoder. The decoder takes the opcode map as an argument (R7, R52), matches the whole opcode byte and rejects by name;
the register operands are checked after it, where the instruction executes (R60, phase 5). -/

namespace Sys2Proof

/-! ### Formats and lengths (R47, R48) -/

/-- The four instruction formats of R48. -/
inductive Format where
  | n
  | r
  | rr
  | ri
deriving DecidableEq, Repr

/-- The operand bytes of a format (R48); an instruction is one byte longer (R47). -/
def Format.operandCount : Format → Nat
  | .n => 0
  | .r => 1
  | .rr => 2
  | .ri => 2

/-- The format of each handler (R48). -/
def Handler.format : Handler → Format
  | .hlt => .n
  | .ret => .n
  | .push => .r
  | .pop => .r
  | .prn => .r
  | .call => .r
  | .jmp => .r
  | .jeq => .r
  | .jne => .r
  | .ldi => .ri
  | .alu _ => .rr

/-- The operand count of each handler: the first half of a row of the opcode table (R47). -/
def Handler.operandCount (h : Handler) : Nat := h.format.operandCount

/-! ### The opcode map of this hardware (R52, D1) -/

/-- The default `OPCODE_MAP`: the table of R52, row by row. PRESUMED: the byte values are from general knowledge
(D1, log 2). -/
def defaultOpcodeMap : OpcodeMap :=
  [ (0x01, .hlt),
    (0x11, .ret),
    (0x45, .push),
    (0x46, .pop),
    (0x47, .prn),
    (0x50, .call),
    (0x54, .jmp),
    (0x55, .jeq),
    (0x56, .jne),
    (0x82, .ldi),
    (0xA0, .alu .add),
    (0xA2, .alu .mul),
    (0xA7, .alu .cmp) ]

/-- The configuration of this hardware (R7). PRESUMED: `STACK_TOP = 0xF4` (D3, log 3). -/
def Config.default : Config where
  memSize := 256
  stackTop := 0xF4
  budget := none
  opcodeMap := defaultOpcodeMap

/-! ### The decoder -/

/-- Why the decoder gives no instruction. Each is a fault of the step that fetched the bytes
(`State.rejectDecode` in Machine/Fetch.lean). -/
inductive DecodeError where
  /-- There is no byte at all: the opcode's address is outside memory (R62). -/
  | noOpcode
  /-- The byte has no row in the opcode map (R55, R63). -/
  | unrecognizedOpcode (opcode : Byte)
  /-- An operand byte is missing: its address is outside memory (R64). -/
  | missingOperand (opcode : Byte)
  /-- The map routes an operation kind to the ALU that the ALU does not have (R74); its operands come with it. -/
  | unsupportedAlu (kind : Nat) (op1 op2 : Byte)
deriving DecidableEq, Repr

/-- A one-operand instruction takes the next byte whole (R49). -/
def takeOne (opcode : Byte) (mk : Byte → Instr) : List Byte → Except DecodeError (Instr × List Byte)
  | op1 :: rest => .ok (mk op1, rest)
  | [] => .error (.missingOperand opcode)

/-- A two-operand instruction takes the next two bytes whole, in order (R49). -/
def takeTwo (opcode : Byte) (mk : Byte → Byte → Except DecodeError Instr) :
    List Byte → Except DecodeError (Instr × List Byte)
  | op1 :: op2 :: rest =>
    match mk op1 op2 with
    | .ok i => .ok (i, rest)
    | .error e => .error e
  | [_] => .error (.missingOperand opcode)
  | [] => .error (.missingOperand opcode)

/-- The ALU instruction of an operation kind; a kind outside `ADD`, `MUL`, `CMP` is no instruction (R74). -/
def aluInstr : AluOp → Byte → Byte → Except DecodeError Instr
  | .add, ra, rb => .ok (.add ra rb)
  | .mul, ra, rb => .ok (.mul ra rb)
  | .cmp, ra, rb => .ok (.cmp ra rb)
  | .other kind, ra, rb => .error (.unsupportedAlu kind ra rb)

/-- The operands of a recognized opcode, at their fixed positions after it (R49). -/
def decodeOperands (opcode : Byte) (h : Handler) (rest : List Byte) : Except DecodeError (Instr × List Byte) :=
  match h with
  | .hlt => .ok (.hlt, rest)
  | .ret => .ok (.ret, rest)
  | .push => takeOne opcode .push rest
  | .pop => takeOne opcode .pop rest
  | .prn => takeOne opcode .prn rest
  | .call => takeOne opcode .call rest
  | .jmp => takeOne opcode .jmp rest
  | .jeq => takeOne opcode .jeq rest
  | .jne => takeOne opcode .jne rest
  | .ldi => takeTwo opcode (fun r v => .ok (.ldi r v)) rest
  | .alu op => takeTwo opcode (aluInstr op) rest

/-- The decoder: the instruction at the head of the bytes and the bytes after it, or the name of what is wrong.
Total on all byte sequences (R63). -/
def decode (m : OpcodeMap) : List Byte → Except DecodeError (Instr × List Byte)
  | [] => .error .noOpcode
  | opcode :: rest =>
    match m.lookup opcode with
    | none => .error (.unrecognizedOpcode opcode)
    | some h => decodeOperands opcode h rest

/-! ### The decoder's control signals (R54) -/

/-- The unit column of R54. -/
inductive BlockUnit where
  | control
  | stack
  | output
  | register
  | alu
deriving DecidableEq, Repr

/-- The register-write column of R54. -/
inductive RegWrite where
  | none
  /-- `R7` alone. -/
  | sp
  /-- `R[a]`, the first operand's register. -/
  | operand
  /-- `R[a]`, then `R7`. -/
  | operandThenSp
deriving DecidableEq, Repr

/-- The memory column of R54. -/
inductive MemAccess where
  | none
  /-- A read of the cell `SP`. -/
  | readAtSp
  /-- A write of the cell `SP - 1`. -/
  | writeBelowSp
deriving DecidableEq, Repr

/-- The `pc_mode` column of R54. -/
inductive PcSignal where
  | hold
  | fromStack
  | advance
  | jump
  | jumpIfEqual
  | jumpIfNotEqual
deriving DecidableEq, Repr

/-- One row of R54: the behaviour the decoder yields for a recognized opcode, beside its operand count. -/
structure ControlSignals where
  format : Format
  unit : BlockUnit
  aluOp : Option AluOp
  regWrite : RegWrite
  flagsWrite : Bool
  memory : MemAccess
  pcSignal : PcSignal
deriving DecidableEq, Repr

/-- The table of R54. A kind the ALU does not have writes nothing: it faults (R74). -/
def Handler.signals : Handler → ControlSignals
  | .hlt => ⟨.n, .control, none, .none, false, .none, .hold⟩
  | .ret => ⟨.n, .stack, none, .sp, false, .readAtSp, .fromStack⟩
  | .push => ⟨.r, .stack, none, .sp, false, .writeBelowSp, .advance⟩
  | .pop => ⟨.r, .stack, none, .operandThenSp, false, .readAtSp, .advance⟩
  | .prn => ⟨.r, .output, none, .none, false, .none, .advance⟩
  | .call => ⟨.r, .stack, none, .sp, false, .writeBelowSp, .jump⟩
  | .jmp => ⟨.r, .control, none, .none, false, .none, .jump⟩
  | .jeq => ⟨.r, .control, none, .none, false, .none, .jumpIfEqual⟩
  | .jne => ⟨.r, .control, none, .none, false, .none, .jumpIfNotEqual⟩
  | .ldi => ⟨.ri, .register, none, .operand, false, .none, .advance⟩
  | .alu .add => ⟨.rr, .alu, some .add, .operand, false, .none, .advance⟩
  | .alu .mul => ⟨.rr, .alu, some .mul, .operand, false, .none, .advance⟩
  | .alu .cmp => ⟨.rr, .alu, some .cmp, .none, true, .none, .advance⟩
  | .alu (.other kind) => ⟨.rr, .alu, some (.other kind), .none, false, .none, .advance⟩

/-! ### The encoder -/

/-- The handler an instruction stands for. -/
def Instr.handler : Instr → Handler
  | .hlt => .hlt
  | .ret => .ret
  | .push _ => .push
  | .pop _ => .pop
  | .prn _ => .prn
  | .call _ => .call
  | .jmp _ => .jmp
  | .jeq _ => .jeq
  | .jne _ => .jne
  | .ldi _ _ => .ldi
  | .add _ _ => .alu .add
  | .mul _ _ => .alu .mul
  | .cmp _ _ => .alu .cmp

/-- The operand bytes of an instruction, in the order of R48. -/
def Instr.operands : Instr → List Byte
  | .hlt => []
  | .ret => []
  | .push r => [r]
  | .pop r => [r]
  | .prn r => [r]
  | .call r => [r]
  | .jmp r => [r]
  | .jeq r => [r]
  | .jne r => [r]
  | .ldi r v => [r, v]
  | .add ra rb => [ra, rb]
  | .mul ra rb => [ra, rb]
  | .cmp ra rb => [ra, rb]

/-- The opcode byte of an instruction of this hardware, from the encoding line of its own rule (R76 to R94).
PRESUMED: D1, log 2. -/
def Instr.opcode : Instr → Byte
  | .hlt => 0x01
  | .ret => 0x11
  | .push _ => 0x45
  | .pop _ => 0x46
  | .prn _ => 0x47
  | .call _ => 0x50
  | .jmp _ => 0x54
  | .jeq _ => 0x55
  | .jne _ => 0x56
  | .ldi _ _ => 0x82
  | .add _ _ => 0xA0
  | .mul _ _ => 0xA2
  | .cmp _ _ => 0xA7

/-- The bytes of an instruction of this hardware: the opcode, then the operands, at ascending addresses (R48, R57). -/
def encode (i : Instr) : List Byte := i.opcode :: i.operands

/-- The first opcode byte that a map gives a handler. -/
def opcodeOf (m : OpcodeMap) (h : Handler) : Option Byte := (m.find? fun row => decide (row.2 = h)).map Prod.fst

/-- The bytes of an instruction under an opcode map; none where the map has no opcode for it. -/
def encodeWith (m : OpcodeMap) (i : Instr) : Option (List Byte) := (opcodeOf m i.handler).map (· :: i.operands)

/-! ### The host's table words -/

/-- The bytes of an instruction numbered as spec/opcode_table.json numbers it (bit 0 is the least significant bit of
the first byte), up to the longest instruction; the bits above `nbits` are zero. -/
def tableBytes (nbits w : Nat) : List Byte :=
  [BitVec.ofNat 8 (w % 2 ^ nbits), BitVec.ofNat 8 (w % 2 ^ nbits / 256), BitVec.ofNat 8 (w % 2 ^ nbits / 65536)]

/-- What the decoder reads from a table word under the map of this hardware. -/
def decodeTableWord (nbits w : Nat) : Option Instr :=
  match decode defaultOpcodeMap (tableBytes nbits w) with
  | .ok (i, _) => some i
  | .error _ => none

end Sys2Proof
end

