-- ==== Sys2Proof/Machine/State.lean ====
section
/-! DEFINITION. The state of the LS8 core (10_state.md R13 to R30), its fault kinds and fault record (60_exceptions.md
R97 to R99), the reasons why a step of the model ends without a next state, and the state after reset. -/

namespace Sys2Proof.Machine

/-- The comparison flags E, L and G: three independent booleans (R19). -/
structure Flags where
  e : Bool
  l : Bool
  g : Bool
deriving DecidableEq, Repr

/-- The run state (R22). -/
inductive RunState where
  | loading
  | running
  | halted
  | faulted
deriving DecidableEq, Repr

/-- The eight fault kinds of the block, in the order of R97. -/
inductive FaultKind where
  | unrecognizedOpcode
  | registerIndexOutOfRange
  | memoryAddressOutOfRange
  | unsupportedAluOperation
  | stackUnderflow
  | stackOverflow
  | programTooLarge
  | stepBudgetExceeded
deriving DecidableEq, Repr

/-- The fault record `{kind, pc, opcode}` (R23, R99). -/
structure FaultRecord where
  kind : FaultKind
  pc : PcWord
  opcode : Option Byte
deriving DecidableEq, Repr

/-- The memory: the cells that differ from the construction value 0x00, as (address, byte) pairs at strictly rising
addresses (R25, R31, R40). `Memory.wf` (Machine/Ops.lean) is this canonical form. -/
abbrev Memory := List Host.Cell

/-- Everything the spec gives the machine. -/
structure State where
  /-- The configuration (R7, R28): no step changes it. DESIGN CHOICE: it is carried in the state (log 1). -/
  cfg : Config
  /-- The register file R0 to R7; R7 is SP (R13, R15). -/
  regs : Vector Byte 8
  /-- The program counter (R17). -/
  pc : PcWord
  /-- The flags E, L, G (R19). -/
  flags : Flags
  /-- The memory (R25, R31). -/
  mem : Memory
  /-- The run state (R22). -/
  runState : RunState
  /-- The fault record, present in `faulted` (R23, R99). -/
  faultRecord : Option FaultRecord
  /-- The step count: instructions completed since `run` (R24). -/
  steps : Nat
  /-- The output stream, oldest byte first (R26, R107). -/
  output : List Byte
deriving DecidableEq, Repr

/-- Why there is no step (R59, R71). These are not the block's faults, which are next states in `faulted`
(`FaultKind`, log 7 and log 8). DEDUCED: a step that the spec says does not exist is a named stop. -/
inductive Fault where
  /-- Raised by `step` in `loading`: the dispatcher waits for `run` (R59, R117). Safe: nothing is claimed to happen. -/
  | notStarted
  /-- Raised by `step` in `halted`: terminal, no step is taken (R71). Safe: nothing is claimed to happen. -/
  | alreadyHalted
  /-- Raised by `step` in `faulted`: terminal, no step is taken (R71). Safe: nothing is claimed to happen. -/
  | alreadyFaulted
deriving DecidableEq, Repr

/-- Why the model gives no meaning. No definition of this model answers one. -/
inductive Refusal where
  /-- For an arm of `exec` without a meaning; there is none left. Safe: nothing is claimed to happen. -/
  | notModelled (mnemonic : String)
deriving DecidableEq, Repr

/-- The state after `construct` under a configuration (R30, R111, R112). -/
def State.construct (c : Config) : State where
  cfg := c
  regs := #v[0, 0, 0, 0, 0, 0, 0, c.stackTop]
  pc := 0
  flags := { e := false, l := false, g := false }
  mem := []
  runState := .loading
  faultRecord := none
  steps := 0
  output := []

/-- The machine right after reset: construction under the configuration of this hardware (R30, R111). -/
def State.reset : State := State.construct Config.default

end Sys2Proof.Machine
end

