-- ==== Sys2Proof/Machine/Flags.lean ====
section
/-! DEFINITION. The flag computation of `CMP` (R78) and the packed flags byte of the status port (R27). -/

namespace Sys2Proof.Machine

/-- The flags after comparing two bytes: E equal, L less, G greater, unsigned (R75, R78). -/
def Flags.compare (a b : Byte) : Flags where
  e := decide (a.toNat = b.toNat)
  l := decide (a.toNat < b.toNat)
  g := decide (a.toNat > b.toNat)

/-- The flags packed as `0b00000LGE` on the status and inspect ports (R27, D24). -/
def Flags.toByte (f : Flags) : Byte := 0b00000#5 ++ BitVec.ofBool f.l ++ BitVec.ofBool f.g ++ BitVec.ofBool f.e

end Sys2Proof.Machine
end

