-- ==== Sys2Proof/Machine/Ops.lean ====
section
/-! DEFINITION. The named operations over memory, registers, the program counter and the run state, and the taking of a
fault. Everything an instruction does is written in these. -/

namespace Sys2Proof.Machine

/-! ### The memory array -/

/-- What a cell that nothing has written holds: the construction value (R38, R40). -/
def Memory.unlisted : Byte := 0x00

/-- The byte of a cell: the listed one, else the construction value (R38). -/
def Memory.read : Memory → Nat → Byte
  | [], _ => Memory.unlisted
  | (a, v) :: rest, x => if a = x then v else Memory.read rest x

/-- The memory with one cell set, in canonical form: a cell that holds the construction value is not listed. -/
def Memory.write : Memory → Nat → Byte → Memory
  | [], x, v => if v = Memory.unlisted then [] else [(x, v)]
  | (a, w) :: rest, x, v =>
    if x < a then
      if v = Memory.unlisted then (a, w) :: rest else (x, v) :: (a, w) :: rest
    else if x = a then
      if v = Memory.unlisted then rest else (x, v) :: rest
    else (a, w) :: Memory.write rest x v

/-- Consecutive bytes written from an address upward, in order (R113). -/
def Memory.writeAll : Memory → Nat → List Byte → Memory
  | m, _, [] => m
  | m, a, v :: vs => Memory.writeAll (m.write a v) (a + 1) vs

/-- The canonical form: strictly rising addresses and no entry that holds the construction value. -/
abbrev Memory.wf (m : Memory) : Prop :=
  m.Pairwise (fun c d => c.1 < d.1) ∧ ∀ c ∈ m, c.2 ≠ Memory.unlisted

/-- Every listed cell is one of the `n` cells that exist (R31, R32). -/
abbrev Memory.within (m : Memory) (n : Nat) : Prop := ∀ c ∈ m, c.1 < n

/-! ### Address decode and access (R32, R36) -/

/-- The byte in cell `a`, whatever the address: the view of `inspect` and of the statements; no instruction uses it. -/
def State.readCell (s : State) (a : Nat) : Byte := s.mem.read a

/-- The address check: an address at or above N selects nothing and faults; it never wraps (R32). -/
def State.checkAddress (s : State) (a : Nat) : Except FaultKind Unit :=
  if a < s.cfg.memSize then .ok () else .error .memoryAddressOutOfRange

/-- `MemRead(a, 1)` (R36). -/
def State.memRead (s : State) (a : Nat) : Except FaultKind Byte :=
  if a < s.cfg.memSize then .ok (s.mem.read a) else .error .memoryAddressOutOfRange

/-- `mem[a] <- v`, without the address check. -/
def State.setCell (s : State) (a : Nat) (v : Byte) : State := { s with mem := s.mem.write a v }

/-- `MemWrite(a, 1, v)` (R36). -/
def State.memWrite (s : State) (a : Nat) (v : Byte) : Except FaultKind State :=
  if a < s.cfg.memSize then .ok (s.setCell a v) else .error .memoryAddressOutOfRange

/-- The two users of the one memory port (R37, R39). -/
inductive Requester where
  | loader
  | dispatcher
deriving DecidableEq, Repr

/-- The arbiter: who holds the memory port in a run state (R39, D29). -/
def RunState.memoryOwner : RunState → Option Requester
  | .loading => some .loader
  | .running => some .dispatcher
  | .halted => none
  | .faulted => none

/-! ### The register file (R9, R13 to R15) -/

/-- `x[r]`. -/
def State.readReg (s : State) (r : RegIdx) : Byte := s.regs.get r

/-- `x[r] <- v`. No register is hardwired, R7 included (R15, D27). -/
def State.writeReg (s : State) (r : RegIdx) (v : Byte) : State := { s with regs := s.regs.set r.val v r.isLt }

/-- `SP`, another name of `x[7]` (R15). -/
def State.sp (s : State) : Byte := s.readReg spIndex

/-! ### The program counter updater (R66) -/

/-- The `pc_mode` of a handler with its arguments (R66). -/
inductive PcMode where
  /-- Past the opcode and `cnt` operand bytes. -/
  | advance (cnt : Nat)
  /-- To the address in a register. -/
  | jump (r : RegIdx)
  /-- To the address in a register when the condition holds, else past opcode and operand. -/
  | cond (c : Bool) (r : RegIdx)
  /-- To a popped byte. -/
  | fromStack (v : Byte)
  /-- Unchanged. -/
  | hold
deriving DecidableEq, Repr

/-- `pc_next` of R66. The sum is a 9-bit one, which does not wrap for any instruction that lies in memory (R67, log 15);
a register or memory byte is not checked as a target (R67). -/
def State.pcNext (s : State) : PcMode → PcWord
  | .advance cnt => s.pc + BitVec.ofNat 9 (1 + cnt)
  | .jump r => (s.readReg r).setWidth 9
  | .cond c r => if c then (s.readReg r).setWidth 9 else s.pc + 2
  | .fromStack v => v.setWidth 9
  | .hold => s.pc

/-- The one pc update of a handler (R66). -/
def State.updatePc (s : State) (mode : PcMode) : State := { s with pc := s.pcNext mode }

/-! ### Flags, output, run state and step count -/

/-- All three flags at once (R20). -/
def State.writeFlags (s : State) (f : Flags) : State := { s with flags := f }

/-- `emit(v)`: append a byte to the output stream (R9, R107). -/
def State.emit (s : State) (v : Byte) : State := { s with output := s.output ++ [v] }

/-- `halt` (R9, R94). -/
def State.halt (s : State) : State := { s with runState := .halted }

/-- A completed instruction adds one to the step count; a step that ended in a fault adds nothing (R69). -/
def State.countCompleted (s : State) : State :=
  if s.runState = .faulted then s else { s with steps := s.steps + 1 }

/-! ### Taking a fault (R68, R99, R101)

There is no return from a fault (R102): the only way out of `faulted` is `construct` (Machine/Ports.lean). -/

/-- Fault entry: the run state becomes `faulted`, the record is latched, nothing else changes (R101). -/
def State.latchFault (s : State) (record : FaultRecord) : State :=
  { s with runState := .faulted, faultRecord := some record }

/-- The opcode part of a record: the byte at `pc` where it can be fetched, else none (R99, log 9). -/
def State.opcodeAtPc (s : State) : Option Byte :=
  if s.pc.toNat < s.cfg.memSize then some (s.mem.read s.pc.toNat) else none

/-- A fault of the instruction at `pc`, entered from the state at the start of its step (R68, R99). -/
def State.takeFault (s : State) (k : FaultKind) : State :=
  s.latchFault { kind := k, pc := s.pc, opcode := s.opcodeAtPc }

/-- The end of a handler: its effects are all applied, or the fault it raised is entered from the state `s` the step
began in, so an instruction is atomic (R68). -/
def State.conclude (s : State) : Except FaultKind State → Host.Outcome State Fault Refusal
  | .ok t => .next t
  | .error k => .next (s.takeFault k)

end Sys2Proof.Machine
end

