-- ==== Sys2Proof/Machine/Operands.lean ====
section
/-! DEFINITION. The operand forms (R48 to R51): register operands are checked in operand order before the handler's own
effects (R65), the immediate is the byte itself (R51). -/

namespace Sys2Proof.Machine

/-- `checkreg(b)`: the whole byte as a register index, or a fault (R50). -/
def checkreg (b : Byte) : Except FaultKind RegIdx :=
  if h : b.toNat < 8 then .ok ⟨b.toNat, h⟩ else .error .registerIndexOutOfRange

/-- The operand byte that names a register (R57: `R0` to `R7` stand for the bytes 0x00 to 0x07). -/
def regOperand (r : RegIdx) : Byte := BitVec.ofNat 8 r.val

/-- Format R, and the register operand of format RI: check it, then run the handler (R60, phases 5 and 6). -/
def withReg (b : Byte) (s : State) (handler : RegIdx → Except FaultKind State) :
    Host.Outcome State Fault Refusal :=
  match checkreg b with
  | .ok r => s.conclude (handler r)
  | .error k => s.conclude (.error k)

/-- Format RR: check the first register operand, then the second, then run the handler (R60, R65). -/
def withTwoRegs (b c : Byte) (s : State) (handler : RegIdx → RegIdx → Except FaultKind State) :
    Host.Outcome State Fault Refusal :=
  withReg b s fun r =>
    match checkreg c with
    | .ok q => handler r q
    | .error k => .error k

end Sys2Proof.Machine
end

