-- ==== Sys2Proof/Machine/Alu.lean ====
section
/-! DEFINITION. The ALU (R73 to R75) and its instructions ADD, MUL, CMP (41_alu.md R76 to R78). -/

namespace Sys2Proof.Machine

/-- What the ALU outputs: a result byte, or three flag values (R73). -/
inductive AluResult where
  | value (v : Byte)
  | flags (f : Flags)
deriving DecidableEq, Repr

/-- The ALU: a pure function of two bytes and an operation kind (R73). Sums and products wrap modulo 256 with no
carry (R75); a kind it does not have faults (R74). -/
def aluCompute (op : AluOp) (a b : Byte) : Except FaultKind AluResult :=
  match op with
  | .add => .ok (.value (BitVec.ofNat 8 ((a.toNat + b.toNat) % 256)))
  | .mul => .ok (.value (BitVec.ofNat 8 ((a.toNat * b.toNat) % 256)))
  | .cmp => .ok (.flags (Flags.compare a b))
  | .other _ => .error .unsupportedAluOperation

/-- Write back an ALU output: a value into the first operand's register (R76, R77), flag values into the flags (R78). -/
def State.writeAluResult (s : State) (dst : RegIdx) : AluResult → State
  | .value v => s.writeReg dst v
  | .flags f => s.writeFlags f

/-- An instruction of format RR on the ALU: operands checked, one ALU operation, one default advance (R66). -/
def aluStep (op : AluOp) (ra rb : Byte) (s : State) : Host.Outcome State Fault Refusal :=
  withTwoRegs ra rb s fun a b =>
    match aluCompute op (s.readReg a) (s.readReg b) with
    | .ok res => .ok ((s.writeAluResult a res).updatePc (.advance 2))
    | .error k => .error k

/-- `ADD ra, rb` (R76). -/
def execAdd (ra rb : Byte) (s : State) : Host.Outcome State Fault Refusal := aluStep .add ra rb s

/-- `MUL ra, rb` (R77). -/
def execMul (ra rb : Byte) (s : State) : Host.Outcome State Fault Refusal := aluStep .mul ra rb s

/-- `CMP ra, rb` (R78). -/
def execCmp (ra rb : Byte) (s : State) : Host.Outcome State Fault Refusal := aluStep .cmp ra rb s

end Sys2Proof.Machine
end

