-- ==== Sys2Proof/Machine/ControlFlow.lean ====
section
/-! DEFINITION. JMP, JEQ, JNE (43_control_flow.md R87 to R91): register-indirect, absolute, no delay slot. The register
operand is checked even when the jump is not taken (R50, D8). -/

namespace Sys2Proof.Machine

/-- `JMP r` (R89). -/
def execJmp (r : Byte) (s : State) : Host.Outcome State Fault Refusal :=
  withReg r s fun r => .ok (s.updatePc (.jump r))

/-- `JEQ r` (R90). -/
def execJeq (r : Byte) (s : State) : Host.Outcome State Fault Refusal :=
  withReg r s fun r => .ok (s.updatePc (.cond s.flags.e r))

/-- `JNE r` (R91). -/
def execJne (r : Byte) (s : State) : Host.Outcome State Fault Refusal :=
  withReg r s fun r => .ok (s.updatePc (.cond (!s.flags.e) r))

end Sys2Proof.Machine
end

