-- ==== Sys2Proof/Machine/LdiPrnHlt.lean ====
section
/-! DEFINITION. LDI, PRN, HLT (44_ldi_prn_hlt.md R92 to R94). -/

namespace Sys2Proof.Machine

/-- `LDI r, v` (R92): the immediate is the whole operand byte, unchanged (R51). -/
def execLdi (r v : Byte) (s : State) : Host.Outcome State Fault Refusal :=
  withReg r s fun r => .ok ((s.writeReg r v).updatePc (.advance 2))

/-- `PRN r` (R93): the byte goes to the output stream; its decimal text is the collaborator's (R5, R107). -/
def execPrn (r : Byte) (s : State) : Host.Outcome State Fault Refusal :=
  withReg r s fun r => .ok ((s.emit (s.readReg r)).updatePc (.advance 1))

/-- `HLT` (R94): the run state becomes `halted`, the pc stays at the `HLT` (D14, C5). -/
def execHlt (s : State) : Host.Outcome State Fault Refusal :=
  s.conclude (.ok (s.halt.updatePc .hold))

end Sys2Proof.Machine
end

