-- ==== Sys2Proof/Machine/Stack.lean ====
section
/-! DEFINITION. The stack sequencer (R79, R80) and PUSH, POP, CALL, RET (42_stack.md R81 to R84). The statements of each
handler run in the order the spec writes them, a later one sees an earlier write (R9, D9). -/

namespace Sys2Proof.Machine

/-- A push needs room below: at `SP = 0` it overflows, and SP does not wrap (R80, C1). -/
def State.checkPushRoom (s : State) : Except FaultKind Unit :=
  if s.sp = 0 then .error .stackOverflow else .ok ()

/-- A pop needs something above: at `SP >= STACK_TOP` it underflows (R80). -/
def State.checkPopRoom (s : State) : Except FaultKind Unit :=
  if s.sp.toNat ≥ s.cfg.stackTop.toNat then .error .stackUnderflow else .ok ()

/-- `SP <- SP - 1`: one-byte slots (R79). -/
def State.decSp (s : State) : State := s.writeReg spIndex (s.sp - 1)

/-- `SP <- (SP + 1) mod 256` (R79, R82). -/
def State.incSp (s : State) : State := s.writeReg spIndex (s.sp + 1)

/-- The two writes of a push, after its checks: SP down by one, then the value into the cell at the new SP (R81). The
value is a function of the state after the SP write (D9). -/
def State.push (s : State) (value : State → Byte) : Except FaultKind State :=
  s.decSp.memWrite s.decSp.sp.toNat (value s.decSp)

/-- The return address of a `CALL`: the address just after its two bytes (R83). -/
def State.returnAddress (s : State) : Nat := s.pc.toNat + 2

/-- `PUSH r` (R81). -/
def execPush (r : Byte) (s : State) : Host.Outcome State Fault Refusal :=
  withReg r s fun r => do
    s.checkPushRoom
    let t ← s.push fun s' => s'.readReg r
    return t.updatePc (.advance 1)

/-- `POP r` (R82). The register is written first, then SP, which is read after that write. -/
def execPop (r : Byte) (s : State) : Host.Outcome State Fault Refusal :=
  withReg r s fun r => do
    s.checkPopRoom
    let v ← s.memRead s.sp.toNat
    return ((s.writeReg r v).incSp).updatePc (.advance 1)

/-- `CALL r` (R83): the bound of the stack, then the return address, then the stack cell are checked (R70); the target
register is read after the push. -/
def execCall (r : Byte) (s : State) : Host.Outcome State Fault Refusal :=
  withReg r s fun r => do
    s.checkPushRoom
    s.checkAddress s.returnAddress
    let t ← s.push fun _ => BitVec.ofNat 8 s.returnAddress
    return t.updatePc (.jump r)

/-- `RET` (R84). -/
def execRet (s : State) : Host.Outcome State Fault Refusal :=
  s.conclude do
    s.checkPopRoom
    let v ← s.memRead s.sp.toNat
    return s.incSp.updatePc (.fromStack v)

end Sys2Proof.Machine
end

