-- ==== Sys2Proof/Machine/Dispatch.lean ====
section
/-! DEFINITION. The dispatcher's call of a handler (R60, phases 5 and 6): one arm per instruction. -/

namespace Sys2Proof.Machine

def exec (i : Instr) (s : State) : Host.Outcome State Fault Refusal :=
  match i with
  | .hlt => Sys2Proof.Machine.execHlt s
  | .ret => Sys2Proof.Machine.execRet s
  | .push r => Sys2Proof.Machine.execPush r s
  | .pop r => Sys2Proof.Machine.execPop r s
  | .prn r => Sys2Proof.Machine.execPrn r s
  | .call r => Sys2Proof.Machine.execCall r s
  | .jmp r => Sys2Proof.Machine.execJmp r s
  | .jeq r => Sys2Proof.Machine.execJeq r s
  | .jne r => Sys2Proof.Machine.execJne r s
  | .ldi r v => Sys2Proof.Machine.execLdi r v s
  | .add ra rb => Sys2Proof.Machine.execAdd ra rb s
  | .mul ra rb => Sys2Proof.Machine.execMul ra rb s
  | .cmp ra rb => Sys2Proof.Machine.execCmp ra rb s

end Sys2Proof.Machine
end

