-- ==== Sys2Proof/Machine/Fetch.lean ====
section
/-! DEFINITION. The common part of a step (R60): the budget check, the fetch, the decoder's rejections as faults, and the
count of completed instructions. -/

namespace Sys2Proof.Machine

/-- Phase 1 (R61): a budget of `B` is used up when `B` instructions have completed. -/
def State.budgetExceeded (s : State) : Bool :=
  match s.cfg.budget with
  | none => false
  | some b => decide (s.steps ≥ b)

/-- The fault of a used-up budget: nothing was fetched, so the record has no opcode (R61, R99). -/
def State.takeBudgetFault (s : State) : State :=
  s.latchFault { kind := .stepBudgetExceeded, pc := s.pc, opcode := none }

/-- The bytes of at most `k` consecutive cells from address `a`, as far as the cells exist (R32, R36). -/
def State.bytesFrom (s : State) : Nat → Nat → List Byte
  | _, 0 => []
  | a, k + 1 => if a < s.cfg.memSize then s.mem.read a :: State.bytesFrom s (a + 1) k else []

/-- The bytes an instruction at `pc` can consist of: at most three (R47), at ascending addresses (R34). The decoder uses
`1 + operand count` of them; reading a cell has no effect (R38, R49, log 14). -/
def State.codeBytes (s : State) : List Byte := s.bytesFrom s.pc.toNat 3

/-- Phases 2 to 4 (R62, R63, R64): the instruction at `pc`, or why there is none. -/
def State.fetch (s : State) : Except DecodeError Instr :=
  (decode s.cfg.opcodeMap s.codeBytes).map Prod.fst

/-- The decoder's rejections are faults of the step (R62, R63, R64). An operation kind the ALU does not have goes to the
ALU like the others, which checks its operands and faults (R65, R74). -/
def State.rejectDecode (s : State) : DecodeError → Host.Outcome State Fault Refusal
  | .noOpcode => .next (s.takeFault .memoryAddressOutOfRange)
  | .unrecognizedOpcode _ => .next (s.takeFault .unrecognizedOpcode)
  | .missingOperand _ => .next (s.takeFault .memoryAddressOutOfRange)
  | .unsupportedAlu kind op1 op2 => aluStep (.other kind) op1 op2 s

/-- Phase 7 (R69): count the instruction if it completed. -/
def countStep : Host.Outcome State Fault Refusal → Host.Outcome State Fault Refusal
  | .next t => .next t.countCompleted
  | .fault r => .fault r
  | .refused r => .refused r

/-- The bytes a table word is laid out as, stored from `pc` upward for the host (Machine/Step.lean). -/
def State.placeCode (s : State) (bytes : List Byte) : State := { s with mem := s.mem.writeAll s.pc.toNat bytes }

/-- A state whose next step fetches at `pc`, with room for the longest instruction: the dispatcher runs (R117), and the
pc and the budget are left alone unless they would keep the step from fetching. -/
def State.readyToFetch (s : State) : State :=
  { s with
    runState := .running
    faultRecord := none
    pc := if s.pc.toNat + 3 ≤ s.cfg.memSize then s.pc else 0
    cfg := if s.budgetExceeded then { s.cfg with budget := none } else s.cfg }

end Sys2Proof.Machine
end

