-- ==== Sys2Proof/Machine/Step.lean ====
section
/-! DEFINITION. One step of the block (40_dispatch.md R59, R60, R71). -/

namespace Sys2Proof.Machine

/-- One step. The dispatcher steps only in `running` (R59); in the other run states there is no step (R71, log 7). -/
def step (s : State) : Host.Outcome State Fault Refusal :=
  match s.runState with
  | .loading => .fault .notStarted
  | .halted => .fault .alreadyHalted
  | .faulted => .fault .alreadyFaulted
  | .running =>
    if s.budgetExceeded then .next s.takeBudgetFault
    else
      match s.fetch with
      | .ok i => countStep (exec i s)
      | .error e => s.rejectDecode e

/-- The state with an instruction of the opcode table stored where the next step fetches, ready to run it. It stands for
`image` and `run` of a one-instruction program (log 6). -/
def State.withFetchWord (s : State) (nbits w : Nat) : State := s.readyToFetch.placeCode (tableBytes nbits w)

end Sys2Proof.Machine
end

