-- ==== Sys2Proof/Machine/Ports.lean ====
section
/-! DEFINITION. The ports of the block (R10): the events that come from outside between steps, and the read-only views. -/

namespace Sys2Proof.Machine

/-- The input ports of R10. -/
inductive PortEvent where
  /-- The block's only reset (R111). -/
  | construct
  /-- The program image, for memory from address 0 (R113). -/
  | image (bytes : List Byte)
  /-- The optional step budget (R116). -/
  | budget (b : Option Nat)
  /-- Start the dispatch loop (R117). -/
  | run
deriving DecidableEq, Repr

/-- `image`: in `loading`, where the loader holds the memory port (R39), the bytes go to memory from address 0 (R113), or
the load faults and writes nothing (R114, D25). Elsewhere it has no effect (log 18). -/
def State.loadImage (s : State) (bytes : List Byte) : State :=
  if s.runState.memoryOwner = some .loader then
    if bytes.length ≤ s.cfg.memSize then { s with mem := s.mem.writeAll 0 bytes }
    else s.latchFault { kind := .programTooLarge, pc := 0, opcode := none }
  else s

/-- `budget`: given before `run`, unchanged during the run (R116); no effect outside `loading` (log 18). -/
def State.setBudget (s : State) (b : Option Nat) : State :=
  if s.runState = .loading then { s with cfg := { s.cfg with budget := b } } else s

/-- `run`: from `loading` to `running`, no effect in any other run state (R117, D26). -/
def State.start (s : State) : State := if s.runState = .loading then { s with runState := .running } else s

/-- An input event (R10). `construct` may come in any run state and discards everything but the configuration
(R111, R28, log 17). -/
def State.port (s : State) : PortEvent → State
  | .construct => State.construct s.cfg
  | .image bytes => s.loadImage bytes
  | .budget b => s.setBudget b
  | .run => s.start

/-- The numeric code of a fault kind on the `status` port (R98, D13). -/
def FaultKind.code : FaultKind → Nat
  | .unrecognizedOpcode => 1
  | .registerIndexOutOfRange => 2
  | .memoryAddressOutOfRange => 3
  | .unsupportedAluOperation => 4
  | .stackUnderflow => 5
  | .stackOverflow => 6
  | .programTooLarge => 7
  | .stepBudgetExceeded => 8

/-- What the `status` port shows (R10, R27): no program can read it. -/
structure Status where
  runState : RunState
  faultRecord : Option FaultRecord
  faultCode : Option Nat
  steps : Nat
  flagsByte : Byte
deriving DecidableEq, Repr

/-- The `status` port (R27, R98). -/
def State.status (s : State) : Status where
  runState := s.runState
  faultRecord := s.faultRecord
  faultCode := s.faultRecord.map fun record => record.kind.code
  steps := s.steps
  flagsByte := s.flags.toByte

/-- What the `inspect` port shows beside the status: all state, for a post-mortem read (R95). -/
structure Inspection where
  status : Status
  regs : List Byte
  flags : Flags
  pc : PcWord
  memory : List Byte
  output : List Byte
deriving DecidableEq, Repr

/-- The `inspect` port: reading has no effect on the state (R95). -/
def State.inspect (s : State) : Inspection where
  status := s.status
  regs := s.regs.toList
  flags := s.flags
  pc := s.pc
  memory := s.bytesFrom 0 s.cfg.memSize
  output := s.output

end Sys2Proof.Machine
end

