-- ==== Sys2Proof/Safety.lean ====
section
/-! DEFINITION. The terms the statements use: the invariant of the machine, terminal states, what two states share. -/

namespace Sys2Proof.Machine

/-- What holds of every state the machine can be in: the configuration is one R7 allows, the memory is in its canonical
form and lists only cells that exist (R31), the pc is one a step can leave (R17, R67), a fault record is held exactly in
`faulted` (R23), nothing has run in `loading` (R30, R118), and the budget is kept (R61). -/
structure State.Inv (s : State) : Prop where
  cfg_wf : s.cfg.wf
  mem_wf : s.mem.wf
  mem_within : s.mem.within s.cfg.memSize
  pc_le : s.pc.toNat ≤ 256
  record_iff : s.faultRecord.isSome = true ↔ s.runState = .faulted
  loading_fresh : s.runState = .loading → s.pc = 0 ∧ s.steps = 0 ∧ s.output = []
  budget_kept : ∀ b, s.cfg.budget = some b → s.steps ≤ b

/-- The terminal run states (R71). -/
def State.Terminal (s : State) : Prop := s.runState = .halted ∨ s.runState = .faulted

/-- A safe run of `k` steps: every step answers a next state and none of them has faulted. -/
def SafeRun : Nat → State → State → Prop
  | 0, s, t => t = s
  | k + 1, s, t => ∃ u, step s = .next u ∧ u.runState ≠ .faulted ∧ SafeRun k u t

/-- The state after a fault of the instruction at `pc`, written out: only the run state and the record change
(R68, R99, R101). -/
def State.afterFault (s : State) (kind : FaultKind) (opcode : Option Byte) : State :=
  { s with runState := .faulted, faultRecord := some { kind := kind, pc := s.pc, opcode := opcode } }

/-- All registers but those listed are unchanged. -/
def RegsKeptBut (written : List RegIdx) (s t : State) : Prop := ∀ r, r ∉ written → t.readReg r = s.readReg r

/-- All memory cells are unchanged. -/
def MemoryKept (s t : State) : Prop := ∀ a, t.readCell a = s.readCell a

/-- All memory cells but one are unchanged. -/
def MemoryKeptBut (cell : Nat) (s t : State) : Prop := ∀ a, a ≠ cell → t.readCell a = s.readCell a

/-- What no handler that completes without halting touches: configuration, run state, fault record, step count. -/
def ControlKept (s t : State) : Prop :=
  t.cfg = s.cfg ∧ t.runState = s.runState ∧ t.faultRecord = s.faultRecord ∧ t.steps = s.steps

/-- The instruction a handler makes of its operand bytes; none for a kind the ALU does not have (R74). -/
def handlerInstr : Handler → Byte → Byte → Option Instr
  | .hlt, _, _ => some .hlt
  | .ret, _, _ => some .ret
  | .push, op1, _ => some (.push op1)
  | .pop, op1, _ => some (.pop op1)
  | .prn, op1, _ => some (.prn op1)
  | .call, op1, _ => some (.call op1)
  | .jmp, op1, _ => some (.jmp op1)
  | .jeq, op1, _ => some (.jeq op1)
  | .jne, op1, _ => some (.jne op1)
  | .ldi, op1, op2 => some (.ldi op1 op2)
  | .alu .add, op1, op2 => some (.add op1 op2)
  | .alu .mul, op1, op2 => some (.mul op1 op2)
  | .alu .cmp, op1, op2 => some (.cmp op1 op2)
  | .alu (.other _), _, _ => none

/-- The pseudocode of R60, phase by phase as it is written there, with the priority of R70: each check stops the step.
It is no part of the machine: a statement says that `step` is this. -/
def stepR60 (s : State) : Host.Outcome State Fault Refusal :=
  let a := s.pc.toNat
  let n := s.cfg.memSize
  if s.cfg.budget.any fun b => decide (s.steps ≥ b) then
    .next (s.afterFault .stepBudgetExceeded none)
  else if a ≥ n then .next (s.afterFault .memoryAddressOutOfRange none)
  else
    let opc := s.readCell a
    match s.cfg.opcodeMap.lookup opc with
    | none => .next (s.afterFault .unrecognizedOpcode (some opc))
    | some h =>
      if h.operandCount ≥ 1 ∧ a + 1 ≥ n then .next (s.afterFault .memoryAddressOutOfRange (some opc))
      else if h.operandCount = 2 ∧ a + 2 ≥ n then .next (s.afterFault .memoryAddressOutOfRange (some opc))
      else
        let op1 := s.readCell (a + 1)
        let op2 := s.readCell (a + 2)
        if h.format ≠ .n ∧ op1.toNat ≥ 8 then .next (s.afterFault .registerIndexOutOfRange (some opc))
        else if h.format = .rr ∧ op2.toNat ≥ 8 then .next (s.afterFault .registerIndexOutOfRange (some opc))
        else
          match handlerInstr h op1 op2 with
          | none => .next (s.afterFault .unsupportedAluOperation (some opc))
          | some i => countStep (exec i s)

/-- What one row of the decoder's control signals (R54) says of a handler that ran from `s` to `t` with these operand
bytes: which registers, flags, cells it may have written, and its one pc update. -/
structure ObeysSignals (sig : ControlSignals) (operands : List Byte) (s t : State) : Prop where
  registers :
    match sig.regWrite with
    | .none => RegsKeptBut [] s t
    | .sp => RegsKeptBut [spIndex] s t
    | .operand => ∀ a, operands.head? = some (regOperand a) → RegsKeptBut [a] s t
    | .operandThenSp => ∀ a, operands.head? = some (regOperand a) → RegsKeptBut [a, spIndex] s t
  flags : sig.flagsWrite = false → t.flags = s.flags
  memory :
    match sig.memory with
    | .none => MemoryKept s t
    | .readAtSp => MemoryKept s t
    | .writeBelowSp => MemoryKeptBut (s.sp.toNat - 1) s t
  pc :
    match sig.pcSignal with
    | .hold => t.pc = s.pc
    | .fromStack => t.pc.toNat = (s.readCell s.sp.toNat).toNat
    | .advance => t.pc = s.pc + BitVec.ofNat 9 (1 + sig.format.operandCount)
    | .jump => ∀ a, operands.head? = some (regOperand a) → t.pc.toNat = (t.readReg a).toNat
    | .jumpIfEqual =>
      if s.flags.e then ∀ a, operands.head? = some (regOperand a) → t.pc.toNat = (s.readReg a).toNat
      else t.pc = s.pc + 2
    | .jumpIfNotEqual =>
      if s.flags.e then t.pc = s.pc + 2
      else ∀ a, operands.head? = some (regOperand a) → t.pc.toNat = (s.readReg a).toNat

end Sys2Proof.Machine
end

