-- ==== Sys2Proof/Certificates/Slice0/Obligations.lean ====
section
/-! DEFINITION. The statements for the provers, from the numbered rules of spec/. A register operand is written
`regOperand r`, the byte that names register `r`; the bytes that name none are `BadRegisterOperandFaults`. Statements that
rest on a decision of the spec (D1 to D29) name it and are of basis derived. -/

open Sys2Proof Sys2Proof.Machine

/-! ### Encoding and decoding -/

/-- Thirteen instructions written out from the opcode table decode as what they stand for (R48, R52). The opcode bytes
are the spec's decision D1 (log 2). -/
def Obligations.OpcodeTableWordsDecode : Prop :=
  decode defaultOpcodeMap [0b00000001] = .ok (.hlt, []) ∧
  decode defaultOpcodeMap [0b00010001] = .ok (.ret, []) ∧
  decode defaultOpcodeMap [0b01000101, 0b00000011] = .ok (.push 3, []) ∧
  decode defaultOpcodeMap [0b01000110, 0b00000100] = .ok (.pop 4, []) ∧
  decode defaultOpcodeMap [0b01000111, 0b00000101] = .ok (.prn 5, []) ∧
  decode defaultOpcodeMap [0b01010000, 0b00000110] = .ok (.call 6, []) ∧
  decode defaultOpcodeMap [0b01010100, 0b00000111] = .ok (.jmp 7, []) ∧
  decode defaultOpcodeMap [0b01010101, 0b00000001] = .ok (.jeq 1, []) ∧
  decode defaultOpcodeMap [0b01010110, 0b00000010] = .ok (.jne 2, []) ∧
  decode defaultOpcodeMap [0b10000010, 0b00000001, 0b11000011] = .ok (.ldi 1 0xC3, []) ∧
  decode defaultOpcodeMap [0b10100000, 0b00000010, 0b00000101] = .ok (.add 2 5, []) ∧
  decode defaultOpcodeMap [0b10100010, 0b00000011, 0b00000110] = .ok (.mul 3 6, []) ∧
  decode defaultOpcodeMap [0b10100111, 0b00000100, 0b00000111] = .ok (.cmp 4 7, [])

/-- Every byte without a row is illegal: 243 of the 256, with 0x00 among them, and the illegal bytes are exactly those
the default map does not list (R55). The map is the spec's decision D1. -/
def Obligations.TwoHundredFortyThreeOpcodesAreIllegal : Prop :=
  ((List.range 256).filter fun n => (defaultOpcodeMap.lookup (BitVec.ofNat 8 n)).isNone).length = 243 ∧
  defaultOpcodeMap.lookup 0x00 = none ∧
  ∀ (b : Byte) (rest : List Byte), defaultOpcodeMap.lookup b = none →
    decode defaultOpcodeMap (b :: rest) = .error (.unrecognizedOpcode b)

/-- Decode and encode agree, for every instruction with every operand byte, under every opcode map with at most one row
for a byte, whatever bytes follow; and under the map of this hardware (R48, R49, R52). -/
def Obligations.DecodeOfEncodeIsTheInstruction : Prop :=
  (∀ (m : OpcodeMap) (i : Instr) (bytes rest : List Byte), (m.map Prod.fst).Nodup →
    encodeWith m i = some bytes → decode m (bytes ++ rest) = .ok (i, rest)) ∧
  ∀ (i : Instr) (rest : List Byte), decode defaultOpcodeMap (encode i ++ rest) = .ok (i, rest)

/-- The other direction: bytes that decode under the map of this hardware begin with the encoding of what they decode
to, so each instruction has one encoding and each byte sequence one meaning (R48, R56). -/
def Obligations.DecodedBytesAreTheEncoding : Prop :=
  ∀ (bytes rest : List Byte) (i : Instr), decode defaultOpcodeMap bytes = .ok (i, rest) → bytes = encode i ++ rest

/-- R47: the length is `1 + operand count`, one to three bytes, and the opcode byte alone decides it: whatever bytes
follow, an opcode with handler `h` takes `h.operandCount` operand bytes, and with that many bytes there it never reports
a missing one. -/
def Obligations.OpcodeAloneFixesTheLength : Prop :=
  ∀ (m : OpcodeMap) (opcode : Byte) (h : Handler) (after : List Byte), m.lookup opcode = some h →
    (h.operandCount ≤ 2) ∧
    (decode m (opcode :: after) = .error (.missingOperand opcode) ↔ after.length < h.operandCount) ∧
    ∀ i rest, decode m (opcode :: after) = .ok (i, rest) →
      (opcode :: after).length = (1 + h.operandCount) + rest.length ∧ i.handler = h

/-! ### Memory and registers -/

/-- R38: a read of a cell returns the most recent write to it, or the construction value; every other cell reads as
before. Reads return a byte and no state, so they have no effect. The canonical form of the memory is a premise, which
`StepKeepsTheInvariant` provides. -/
def Obligations.CellReadReturnsTheLatestWrite : Prop :=
  (∀ (s : State) (a : Nat) (v : Byte), s.mem.wf → a < s.cfg.memSize →
    ∃ t, s.memWrite a v = .ok t ∧ t.memRead a = .ok v ∧ (∀ b, b ≠ a → t.memRead b = s.memRead b) ∧
      t = { s with mem := t.mem }) ∧
  ∀ (c : Config) (a : Nat), a < c.memSize → (State.construct c).memRead a = .ok 0x00

/-- An address at or above N is never read, written or wrapped: it faults (R32, R36), whatever the address. -/
def Obligations.AddressOutOfRangeFaults : Prop :=
  ∀ (s : State) (a : Nat) (v : Byte),
    (s.cfg.memSize ≤ a ↔ s.memRead a = .error .memoryAddressOutOfRange) ∧
    (s.cfg.memSize ≤ a ↔ s.memWrite a v = .error .memoryAddressOutOfRange)

/-- A register holds whatever was last written to it, every register, R7 included, under its name SP too (R13, R15; that
every register can be written is the spec's decision D27). -/
def Obligations.RegisterReadReturnsTheLatestWrite : Prop :=
  ∀ (s : State) (r q : RegIdx) (v : Byte),
    (s.writeReg r v).readReg q = (if q = r then v else s.readReg q) ∧ (s.writeReg spIndex v).sp = v

/-! ### ALU -/

/-- `ADD ra, rb` completes with the sum modulo 256 in the first operand's register; nothing else changes but the pc
(R75, R76; the pc is past the three bytes). -/
def Obligations.AddWritesTheSumModulo256 : Prop :=
  ∀ (ra rb : RegIdx) (s : State), ∃ t, exec (.add (regOperand ra) (regOperand rb)) s = .next t ∧
    (t.readReg ra).toNat = ((s.readReg ra).toNat + (s.readReg rb).toNat) % 256 ∧ RegsKeptBut [ra] s t ∧
    t.flags = s.flags ∧ t.pc = s.pc + 3 ∧ MemoryKept s t ∧ t.output = s.output ∧ ControlKept s t

/-- `MUL ra, rb` completes with the product modulo 256 in the first operand's register; nothing else changes but the pc
(R75, R77). -/
def Obligations.MulWritesTheProductModulo256 : Prop :=
  ∀ (ra rb : RegIdx) (s : State), ∃ t, exec (.mul (regOperand ra) (regOperand rb)) s = .next t ∧
    (t.readReg ra).toNat = ((s.readReg ra).toNat * (s.readReg rb).toNat) % 256 ∧ RegsKeptBut [ra] s t ∧
    t.flags = s.flags ∧ t.pc = s.pc + 3 ∧ MemoryKept s t ∧ t.output = s.output ∧ ControlKept s t

/-- `CMP ra, rb` completes with E, L, G from the unsigned comparison of the two registers, exactly one of them true; no
register and no cell changes (R75, R78). -/
def Obligations.CmpSetsTheFlagsUnsigned : Prop :=
  ∀ (ra rb : RegIdx) (s : State), ∃ t, exec (.cmp (regOperand ra) (regOperand rb)) s = .next t ∧
    (t.flags.e = true ↔ (s.readReg ra).toNat = (s.readReg rb).toNat) ∧
    (t.flags.l = true ↔ (s.readReg ra).toNat < (s.readReg rb).toNat) ∧
    (t.flags.g = true ↔ (s.readReg ra).toNat > (s.readReg rb).toNat) ∧
    [t.flags.e, t.flags.l, t.flags.g].count true = 1 ∧ RegsKeptBut [] s t ∧
    t.pc = s.pc + 3 ∧ MemoryKept s t ∧ t.output = s.output ∧ ControlKept s t

/-! ### LDI, PRN, HLT -/

/-- `LDI r, v` completes with the immediate in the register, for every byte `v` and every register (R92). -/
def Obligations.LdiWritesTheImmediate : Prop :=
  ∀ (r : RegIdx) (v : Byte) (s : State), ∃ t, exec (.ldi (regOperand r) v) s = .next t ∧
    t.readReg r = v ∧ RegsKeptBut [r] s t ∧ t.flags = s.flags ∧ t.pc = s.pc + 3 ∧ MemoryKept s t ∧
    t.output = s.output ∧ ControlKept s t

/-- `PRN r` completes by appending the register's byte to the output stream; no register, flag or cell changes
(R93, R107). -/
def Obligations.PrnAppendsTheRegister : Prop :=
  ∀ (r : RegIdx) (s : State), ∃ t, exec (.prn (regOperand r)) s = .next t ∧
    t.output = s.output ++ [s.readReg r] ∧ RegsKeptBut [] s t ∧ t.flags = s.flags ∧ t.pc = s.pc + 2 ∧
    MemoryKept s t ∧ ControlKept s t

/-- `HLT` completes in `halted` and changes nothing else; that the pc stays is the spec's decision D14 (R94). -/
def Obligations.HltStopsInPlace : Prop :=
  ∀ s : State, exec .hlt s = .next { s with runState := .halted }

/-! ### Control flow -/

/-- `JMP r` completes with the register's value as the pc (R89). -/
def Obligations.JmpGoesToTheRegister : Prop :=
  ∀ (r : RegIdx) (s : State), ∃ t, exec (.jmp (regOperand r)) s = .next t ∧
    t.pc.toNat = (s.readReg r).toNat ∧ RegsKeptBut [] s t ∧ t.flags = s.flags ∧ MemoryKept s t ∧
    t.output = s.output ∧ ControlKept s t

/-- `JEQ r` completes: to the register's value when E is set, else past its two bytes; L and G do not matter
(R88, R90). -/
def Obligations.JeqFollowsTheEqualFlag : Prop :=
  ∀ (r : RegIdx) (s : State), ∃ t, exec (.jeq (regOperand r)) s = .next t ∧
    (s.flags.e = true → t.pc.toNat = (s.readReg r).toNat) ∧ (s.flags.e = false → t.pc = s.pc + 2) ∧
    RegsKeptBut [] s t ∧ t.flags = s.flags ∧ MemoryKept s t ∧ t.output = s.output ∧ ControlKept s t

/-- `JNE r` completes: to the register's value when E is clear, else past its two bytes (R88, R91). -/
def Obligations.JneFollowsTheClearEqualFlag : Prop :=
  ∀ (r : RegIdx) (s : State), ∃ t, exec (.jne (regOperand r)) s = .next t ∧
    (s.flags.e = false → t.pc.toNat = (s.readReg r).toNat) ∧ (s.flags.e = true → t.pc = s.pc + 2) ∧
    RegsKeptBut [] s t ∧ t.flags = s.flags ∧ MemoryKept s t ∧ t.output = s.output ∧ ControlKept s t

/-! ### The stack -/

/-- `PUSH r` completes whenever there is room and the cell below SP exists: SP goes down by one, and the cell at the new
SP, the address `s.sp.toNat - 1`, holds the register's byte. `PUSH R7` stores the decremented SP: the spec's decision D9
(R79, R81). -/
def Obligations.PushStoresBelowSp : Prop :=
  ∀ (r : RegIdx) (s : State), s.mem.wf → s.sp ≠ 0 → s.sp.toNat - 1 < s.cfg.memSize →
    ∃ t, exec (.push (regOperand r)) s = .next t ∧
      t.sp.toNat = s.sp.toNat - 1 ∧ RegsKeptBut [spIndex] s t ∧
      t.readCell (s.sp.toNat - 1) = (if r = spIndex then s.sp - 1 else s.readReg r) ∧
      MemoryKeptBut (s.sp.toNat - 1) s t ∧
      t.flags = s.flags ∧ t.pc = s.pc + 2 ∧ t.output = s.output ∧ ControlKept s t

/-- `POP r` completes whenever SP is below the top: the register gets the byte at SP and SP goes up by one; no cell
changes. `POP R7` leaves the popped byte plus one modulo 256: the spec's decision D9 (R79, R82). -/
def Obligations.PopLoadsFromSp : Prop :=
  ∀ (r : RegIdx) (s : State), s.cfg.wf → s.sp.toNat < s.cfg.stackTop.toNat →
    ∃ t, exec (.pop (regOperand r)) s = .next t ∧
      (r ≠ spIndex → t.readReg r = s.readCell s.sp.toNat ∧ t.sp.toNat = s.sp.toNat + 1) ∧
      (r = spIndex → t.sp.toNat = ((s.readCell s.sp.toNat).toNat + 1) % 256) ∧
      RegsKeptBut [r, spIndex] s t ∧ MemoryKept s t ∧
      t.flags = s.flags ∧ t.pc = s.pc + 2 ∧ t.output = s.output ∧ ControlKept s t

/-- `CALL r` completes whenever there is room, the return address `pc + 2` is an address and the cell below SP exists: it
pushes `pc + 2` and goes to the register's value. `CALL R7` goes to the decremented SP (D9), and the bound on the return
address is D10: decisions of the spec (R83). -/
def Obligations.CallPushesTheReturnAddress : Prop :=
  ∀ (r : RegIdx) (s : State), s.cfg.wf → s.mem.wf → s.sp ≠ 0 → s.pc.toNat + 2 < s.cfg.memSize →
    s.sp.toNat - 1 < s.cfg.memSize →
    ∃ t, exec (.call (regOperand r)) s = .next t ∧
      t.sp.toNat = s.sp.toNat - 1 ∧ RegsKeptBut [spIndex] s t ∧
      (t.readCell (s.sp.toNat - 1)).toNat = s.pc.toNat + 2 ∧ MemoryKeptBut (s.sp.toNat - 1) s t ∧
      t.pc.toNat = (if r = spIndex then s.sp.toNat - 1 else (s.readReg r).toNat) ∧
      t.flags = s.flags ∧ t.output = s.output ∧ ControlKept s t

/-- `RET` completes whenever SP is below the top: the pc is the byte at SP and SP goes up by one; flags and cells are as
they were (R21, R84). -/
def Obligations.RetPopsThePc : Prop :=
  ∀ s : State, s.cfg.wf → s.sp.toNat < s.cfg.stackTop.toNat →
    ∃ t, exec .ret s = .next t ∧
      t.pc.toNat = (s.readCell s.sp.toNat).toNat ∧ t.sp.toNat = s.sp.toNat + 1 ∧ RegsKeptBut [spIndex] s t ∧
      MemoryKept s t ∧ t.flags = s.flags ∧ t.output = s.output ∧ ControlKept s t

/-- The bounds of the stack: a push at SP = 0 is a `StackOverflow`, a pop at or above the top is a `StackUnderflow`, and
nothing else changes (R80, R81 to R84, C1). The record's opcode is the byte at the pc (D12). -/
def Obligations.StackBoundsFault : Prop :=
  ∀ (r : RegIdx) (s : State),
    (s.sp = 0 →
      exec (.push (regOperand r)) s = .next (s.afterFault .stackOverflow s.opcodeAtPc) ∧
      exec (.call (regOperand r)) s = .next (s.afterFault .stackOverflow s.opcodeAtPc)) ∧
    (s.cfg.stackTop.toNat ≤ s.sp.toNat →
      exec (.pop (regOperand r)) s = .next (s.afterFault .stackUnderflow s.opcodeAtPc) ∧
      exec .ret s = .next (s.afterFault .stackUnderflow s.opcodeAtPc))

/-- A `CALL` whose return address is no address, and a `PUSH` or `CALL` whose cell does not exist, fault and write
nothing; the overflow of the stack comes first (R81, R83; decisions D7, D10). -/
def Obligations.StoreOutsideMemoryFaults : Prop :=
  ∀ (r : RegIdx) (s : State), s.sp ≠ 0 →
    (s.cfg.memSize ≤ s.pc.toNat + 2 →
      exec (.call (regOperand r)) s = .next (s.afterFault .memoryAddressOutOfRange s.opcodeAtPc)) ∧
    (s.cfg.memSize ≤ s.sp.toNat - 1 →
      exec (.push (regOperand r)) s = .next (s.afterFault .memoryAddressOutOfRange s.opcodeAtPc) ∧
      exec (.call (regOperand r)) s = .next (s.afterFault .memoryAddressOutOfRange s.opcodeAtPc))

/-- With a configuration R7 allows, `POP` and `RET` can fault only by underflow, and with 256 cells a `PUSH` only by
overflow: no register holds an address outside memory (R32, R80, both derived by the spec). -/
def Obligations.StackFaultKindsAreThoseOfTheBounds : Prop :=
  ∀ (r : RegIdx) (s t : State), s.cfg.wf → s.runState = .running → t.runState = .faulted →
    (exec (.pop (regOperand r)) s = .next t ∨ exec .ret s = .next t →
      t = s.afterFault .stackUnderflow s.opcodeAtPc) ∧
    (s.cfg.memSize = 256 → exec (.push (regOperand r)) s = .next t →
      t = s.afterFault .stackOverflow s.opcodeAtPc)

/-- The stack inverse law (R85): `PUSH r` then `POP q`, neither of them R7, sets `q` to what `r` held, restores SP and
leaves every other register alone. The premise `SP <= STACK_TOP` is needed: above it the pop underflows (R80), which R85
does not say (log 20). -/
def Obligations.PopUndoesPush : Prop :=
  ∀ (r q : RegIdx) (s : State), s.cfg.wf → s.mem.wf → r ≠ spIndex → q ≠ spIndex → s.sp ≠ 0 →
    s.sp.toNat ≤ s.cfg.stackTop.toNat →
    ∃ t u, exec (.push (regOperand r)) s = .next t ∧ exec (.pop (regOperand q)) t = .next u ∧
      u.readReg q = s.readReg r ∧ u.sp = s.sp ∧ RegsKeptBut [q] s u

/-- The call and return law (R86): a `CALL`, then any run of the subroutine that ends with the stack pointer and the
return cell as the call left them, then `RET`: the pc is just after the `CALL` and SP is what it was. -/
def Obligations.RetReturnsBehindTheCall : Prop :=
  ∀ (r : RegIdx) (s t u : State), s.cfg.wf → s.mem.wf → s.runState = .running → s.sp.toNat ≤ s.cfg.stackTop.toNat →
    exec (.call (regOperand r)) s = .next t → t.runState = .running →
    u.cfg = t.cfg → u.sp = t.sp → u.readCell u.sp.toNat = t.readCell t.sp.toNat →
    ∃ v, exec .ret u = .next v ∧ v.pc.toNat = s.pc.toNat + 2 ∧ v.sp = s.sp ∧ RegsKeptBut [spIndex] u v

/-! ### Over all instructions -/

/-- An instruction with a register operand byte of 8 or more faults, whatever the flags and the stack, and writes nothing
(R50; that an operand which is not read is checked too, and before every other check of the handler, is the spec's
decisions D7 and D8). -/
def Obligations.BadRegisterOperandFaults : Prop :=
  ∀ (i : Instr) (s : State), WellFormed i = false →
    exec i s = .next (s.afterFault .registerIndexOutOfRange s.opcodeAtPc)

/-- R20 and R21: no instruction but `CMP` changes a flag, `CMP` writes all three whatever they were, the flags L and G are
read by no instruction (with other values of them, every instruction does the same to everything else), and E is read by
`JEQ` and `JNE`, which go to the register's value on opposite values of it. -/
def Obligations.FlagsBelongToCmp : Prop :=
  (∀ (i : Instr) (s t : State), exec i s = .next t → (∀ ra rb, i ≠ .cmp ra rb) → t.flags = s.flags) ∧
  (∀ (ra rb : RegIdx) (s : State) (f : Flags), ∃ t, exec (.cmp (regOperand ra) (regOperand rb)) s = .next t ∧
    exec (.cmp (regOperand ra) (regOperand rb)) { s with flags := f } = .next t) ∧
  (∀ (i : Instr) (s t : State) (l g : Bool), exec i s = .next t →
    ∃ u, exec i { s with flags := { s.flags with l := l, g := g } } = .next u ∧ { u with flags := t.flags } = t) ∧
  (∀ (r : RegIdx) (s : State) (e : Bool), ∃ t u,
    exec (.jeq (regOperand r)) { s with flags := { s.flags with e := e } } = .next t ∧
    exec (.jne (regOperand r)) { s with flags := { s.flags with e := !e } } = .next u ∧
    t.pc = (if e then (s.readReg r).setWidth 9 else s.pc + 2) ∧ u.pc = t.pc)

/-- Memory is written by `PUSH` and `CALL` only, and by them only in the cell below SP (R37, R40); every byte outside the
stored one is as it was. -/
def Obligations.OnlyPushAndCallStore : Prop :=
  ∀ (i : Instr) (s t : State), s.mem.wf → exec i s = .next t →
    (i.handler = .push ∨ i.handler = .call → MemoryKeptBut (s.sp.toNat - 1) s t) ∧
    (i.handler ≠ .push → i.handler ≠ .call → MemoryKept s t)

/-- Every handler that completes does what its row of the decoder's control signals says, and nothing the row does not
list (R54, R66; the signals are the spec's decision D17). -/
def Obligations.HandlersObeyTheirControlSignals : Prop :=
  ∀ (i : Instr) (s t : State), s.mem.wf → s.runState = .running → exec i s = .next t → t.runState ≠ .faulted →
    ObeysSignals i.handler.signals i.operands s t

/-- The default advance does not wrap: an instruction that lies in memory leaves the pc just past its last byte, at most
N (R66, R67; the 9-bit pc is the spec's decision D4). -/
def Obligations.AdvanceDoesNotWrap : Prop :=
  ∀ (i : Instr) (s t : State), s.cfg.wf → s.runState = .running →
    s.pc.toNat + (encode i).length ≤ s.cfg.memSize → exec i s = .next t → t.runState ≠ .faulted →
    i.handler.signals.pcSignal = .advance →
    t.pc.toNat = s.pc.toNat + (encode i).length ∧ t.pc.toNat ≤ s.cfg.memSize

/-! ### The step -/

/-- A step runs the decoded instruction: in `running`, with the budget not used up and the bytes of `i` at the pc, `step`
is `exec i`, and one is added to the step count unless the instruction faulted (R60, R69). -/
def Obligations.StepRunsTheDecodedInstruction : Prop :=
  ∀ (s : State) (i : Instr) (bytes : List Byte), s.runState = .running →
    (∀ b, s.cfg.budget = some b → s.steps < b) → (s.cfg.opcodeMap.map Prod.fst).Nodup →
    encodeWith s.cfg.opcodeMap i = some bytes →
    (∀ k b, bytes[k]? = some b → s.pc.toNat + k < s.cfg.memSize ∧ s.readCell (s.pc.toNat + k) = b) →
    ∃ t, exec i s = .next t ∧
      step s = .next (if t.runState = .faulted then t else { t with steps := t.steps + 1 })

/-- `step` is the pseudocode of R60, phase by phase, with the fault priority of R70: decisions D7, D8, D11, D12 and
D18 of the spec. -/
def Obligations.StepIsThePseudocodeOfTheSpec : Prop :=
  ∀ s : State, s.runState = .running → step s = stepR60 s

/-- R63: a byte at the pc that is not in the table raises `UnrecognizedOpcode` carrying the pc and the byte, with no other
effect, whatever stands behind it; a byte in the table never does. -/
def Obligations.UnrecognizedOpcodeFaults : Prop :=
  ∀ s : State, s.runState = .running → (∀ b, s.cfg.budget = some b → s.steps < b) → s.pc.toNat < s.cfg.memSize →
    (s.cfg.opcodeMap.lookup (s.readCell s.pc.toNat) = none →
      step s = .next (s.afterFault .unrecognizedOpcode (some (s.readCell s.pc.toNat)))) ∧
    (∀ h, s.cfg.opcodeMap.lookup (s.readCell s.pc.toNat) = some h →
      ∀ t k p o, step s = .next t → t.runState = .faulted → t.faultRecord = some ⟨k, p, o⟩ → k ≠ .unrecognizedOpcode)

/-- A used-up budget faults before anything is fetched (R61; the counting is the spec's decision D11), and a pc outside
memory faults at the fetch without an opcode (R62). -/
def Obligations.BudgetThenFetchAddressFault : Prop :=
  ∀ s : State, s.runState = .running →
    (∀ b, s.cfg.budget = some b → b ≤ s.steps → step s = .next (s.afterFault .stepBudgetExceeded none)) ∧
    ((∀ b, s.cfg.budget = some b → s.steps < b) → s.cfg.memSize ≤ s.pc.toNat →
      step s = .next (s.afterFault .memoryAddressOutOfRange none))

/-- An opcode map that routes another operation kind to the ALU faults rather than computes, after the register checks;
with the map of this hardware no step raises `UnsupportedAluOperation` (R74; decision D18). -/
def Obligations.UnsupportedAluKindFaults : Prop :=
  (∀ (s : State) (kind : Nat) (a b : RegIdx), s.runState = .running →
    (∀ b, s.cfg.budget = some b → s.steps < b) → s.pc.toNat + 2 < s.cfg.memSize →
    s.cfg.opcodeMap.lookup (s.readCell s.pc.toNat) = some (.alu (.other kind)) →
    s.readCell (s.pc.toNat + 1) = regOperand a → s.readCell (s.pc.toNat + 2) = regOperand b →
    step s = .next (s.afterFault .unsupportedAluOperation (some (s.readCell s.pc.toNat)))) ∧
  (∀ (s t : State) (p : PcWord) (o : Option Byte), s.cfg.opcodeMap = defaultOpcodeMap → step s = .next t →
    t.runState = .faulted → t.faultRecord ≠ some ⟨.unsupportedAluOperation, p, o⟩)

/-- R68: a step that faults leaves every register, every flag, every memory cell, the pc, the step count and the output
stream exactly as they were; only the run state and the fault record change. -/
def Obligations.FaultingStepChangesNothingElse : Prop :=
  ∀ s t : State, step s = .next t → t.runState = .faulted →
    ∃ record, t = { s with runState := .faulted, faultRecord := some record }

/-- The record of a faulting step holds the address of its instruction, and the byte fetched there, or none where nothing
was fetched: a used-up budget, or a pc outside memory. No step raises `ProgramTooLarge` (R98, R99; decision D12). -/
def Obligations.FaultRecordNamesTheInstruction : Prop :=
  ∀ s t : State, step s = .next t → t.runState = .faulted →
    ∃ k, k ≠ .programTooLarge ∧ t.faultRecord = some ⟨k, s.pc,
      if k = .stepBudgetExceeded ∨ s.cfg.memSize ≤ s.pc.toNat then none else some (s.readCell s.pc.toNat)⟩

/-- A step adds one to the step count exactly when it did not fault (R69; decision D11). -/
def Obligations.CompletedStepCountsOne : Prop :=
  ∀ s t : State, step s = .next t → t.steps = if t.runState = .faulted then s.steps else s.steps + 1

/-- Every step from `running` answers a next state, a completed instruction or a fault. It is `halted` only by a completed
`HLT`, else `running` or `faulted`, and without a budget no step raises `StepBudgetExceeded` (R72). That a `HLT` leaves the
pc and adds one to the step count are the spec's decisions D14 and D11 (log 19). -/
def Obligations.RunningStepCompletesOrFaults : Prop :=
  ∀ s : State, s.runState = .running → ∃ t, step s = .next t ∧ t.runState ≠ .loading ∧
    (t.runState = .halted → s.fetch = .ok .hlt ∧ t = { s with runState := .halted, steps := s.steps + 1 }) ∧
    (s.cfg.budget = none → t.runState = .faulted → ∀ p o, t.faultRecord ≠ some ⟨.stepBudgetExceeded, p, o⟩)

/-- R71: no step is taken from `halted` and `faulted`, nor from `loading`; and in `halted` and `faulted` no port event but
`construct` changes the state. -/
def Obligations.TerminalStatesTakeNoStep : Prop :=
  (∀ s t : State, s.runState ≠ .running → step s ≠ .next t) ∧
  (∀ (s : State) (event : PortEvent), s.Terminal → event ≠ .construct → s.port event = s)

/-- No step emits anything but a completed `PRN`, which appends its register's byte (R107; decision D23 for the port). -/
def Obligations.OutputGrowsOnlyByPrn : Prop :=
  ∀ s t : State, step s = .next t →
    t.output = s.output ∨
      ∃ r, s.fetch = .ok (.prn (regOperand r)) ∧ t.output = s.output ++ [s.readReg r] ∧ t.runState = .running

/-- The configuration never changes: not in a step, and by no port event but the budget, which is given before `run`
(R28, R116; carrying it in the state is the model's choice, log 1, as is `construct` keeping it, log 17). -/
def Obligations.ConfigurationNeverChanges : Prop :=
  (∀ s t : State, step s = .next t → t.cfg = s.cfg) ∧
  (∀ (s : State) (event : PortEvent), (s.port event).cfg = s.cfg ∨
    ∃ b, event = .budget b ∧ s.runState = .loading ∧ (s.port event).cfg = { s.cfg with budget := b })

/-- A byte stored over the next instruction is what the next step looks up and runs (R45, R121; decision D19): after a
completed `PUSH` or `CALL` that leaves the pc at the cell it stored to, the next fetch decodes the stored byte with the
cells behind it as they were. A byte without a row in the map faults with its own value in the record; one that decodes to
an instruction runs it, for any opcode map. What `PUSH R7` stores is decision D9, the premise on the return address of the
`CALL` is its completion (D10), the record's opcode is D12 and the count D11 (log 9, 12, 13, 14, 19). -/
def Obligations.StoredOpcodeRunsNext : Prop :=
  ∀ (s t : State) (v : Byte), s.cfg.wf → s.mem.wf → step s = .next t → t.runState = .running →
    (∀ b, t.cfg.budget = some b → t.steps < b) → t.pc.toNat = s.sp.toNat - 1 →
    (∃ r, s.fetch = .ok (.push (regOperand r)) ∧ v = (if r = spIndex then s.sp - 1 else s.readReg r)) ∨
      (∃ r, s.fetch = .ok (.call (regOperand r)) ∧ v.toNat = s.pc.toNat + 2) →
    t.fetch = (decode s.cfg.opcodeMap (v :: s.bytesFrom s.sp.toNat 2)).map Prod.fst ∧
    (s.cfg.opcodeMap.lookup v = none → step t = .next (t.afterFault .unrecognizedOpcode (some v))) ∧
    (∀ i rest, decode s.cfg.opcodeMap (v :: s.bytesFrom s.sp.toNat 2) = .ok (i, rest) →
      ∃ u, exec i t = .next u ∧
        step t = .next (if u.runState = .faulted then u else { u with steps := u.steps + 1 }))

/-- A run under a budget ends: from `running` with `B` the budget and at most `B` instructions completed, within
`B - steps + 1` steps the machine is in a terminal state, and no more than `B` instructions have completed (R61, R72;
decision D11). -/
def Obligations.BudgetBoundsTheRun : Prop :=
  ∀ (s : State) (b : Nat), s.runState = .running → s.cfg.budget = some b → s.steps ≤ b →
    ∃ (k : Nat) (t : State), k ≤ b - s.steps + 1 ∧ Host.Core.run Sys2Proof.core k s = .next t ∧ t.Terminal ∧ t.steps ≤ b

/-! ### The invariant -/

/-- Every constructed state, and the state after reset, meets the invariant. -/
def Obligations.ConstructionMeetsTheInvariant : Prop :=
  (∀ c : Config, c.wf → (State.construct c).Inv) ∧ State.reset.Inv

/-- Every step keeps the invariant: the configuration as R7 allows it, the memory in canonical form over the cells that
exist, the pc at most 256, a record exactly in `faulted`, the budget kept (R7, R17, R23, R31, R61, R67). -/
def Obligations.StepKeepsTheInvariant : Prop :=
  ∀ s t : State, s.Inv → step s = .next t → t.Inv

/-- Every port event keeps the invariant. -/
def Obligations.PortsKeepTheInvariant : Prop :=
  ∀ (s : State) (event : PortEvent), s.Inv → (s.port event).Inv

/-! ### Construction, load, run, ports -/

/-- `construct` in any run state brings every piece of state to its construction value and discards the rest. The flags,
the memory and SP are the source's; the other registers, the pc, the run state, the step count and the output are the
spec's decisions D5, D6, D11, D23, D26 (R30, R111, R112). -/
def Obligations.ConstructGivesTheConstructionValues : Prop :=
  ∀ s : State, ∃ t, s.port .construct = t ∧ t.readReg 0 = 0 ∧ t.readReg 1 = 0 ∧ t.readReg 2 = 0 ∧ t.readReg 3 = 0 ∧
    t.readReg 4 = 0 ∧ t.readReg 5 = 0 ∧ t.readReg 6 = 0 ∧ t.readReg 7 = s.cfg.stackTop ∧ t.pc = 0 ∧
    t.flags = ⟨false, false, false⟩ ∧ (∀ a, t.readCell a = 0x00) ∧ t.runState = .loading ∧ t.faultRecord = none ∧
    t.steps = 0 ∧ t.output = []

/-- R113: in `loading` an image that fits is written to memory from address 0 in order; the cells behind it keep their
construction value, nothing else changes; once execution has begun the image port writes nothing. -/
def Obligations.LoadPlacesTheImage : Prop :=
  (∀ (c : Config) (bytes : List Byte), bytes.length ≤ c.memSize →
    (∀ i b, bytes[i]? = some b → ((State.construct c).port (.image bytes)).readCell i = b) ∧
    (∀ i, bytes.length ≤ i → ((State.construct c).port (.image bytes)).readCell i = 0x00) ∧
    { (State.construct c).port (.image bytes) with mem := (State.construct c).mem } = State.construct c) ∧
  (∀ (s : State) (bytes : List Byte), s.runState ≠ .loading → s.port (.image bytes) = s)

/-- An image of more than N bytes faults before any execution with pc 0 and no opcode, and no byte of it is written; one
of exactly N is legal (R114; decision D25). -/
def Obligations.OversizedImageFaults : Prop :=
  ∀ (c : Config) (bytes : List Byte),
    (c.memSize < bytes.length → (State.construct c).port (.image bytes) =
      { State.construct c with runState := .faulted, faultRecord := some ⟨.programTooLarge, 0, none⟩ }) ∧
    (bytes.length = c.memSize → ((State.construct c).port (.image bytes)).runState = .loading)

/-- The boot sequence `construct`, `image`, `budget`, `run` (R119): the machine runs, from address 0, with the image in
place, the budget set and the stack pointer at the top; `run` a second time does nothing (R116, R117, R118; decisions D5,
D26). -/
def Obligations.BootRunsTheImageFromZero : Prop :=
  ∀ (s : State) (bytes : List Byte) (b : Option Nat), bytes.length ≤ s.cfg.memSize →
    ∃ t, (((s.port .construct).port (.image bytes)).port (.budget b)).port .run = t ∧
      t.runState = .running ∧ t.pc = 0 ∧ t.steps = 0 ∧ t.cfg = { s.cfg with budget := b } ∧ t.sp = s.cfg.stackTop ∧
      (∀ i c, bytes[i]? = some c → t.readCell i = c) ∧ t.port .run = t

/-- The status port: the fault kinds have the codes 1 to 8 in the order of R97, the port shows the code of the latched
record and none without a record (D13), and the flags byte is `0b00000LGE` (D24): decisions of the spec (R27, R98). -/
def Obligations.StatusPortShowsCodesAndFlags : Prop :=
  [FaultKind.unrecognizedOpcode, .registerIndexOutOfRange, .memoryAddressOutOfRange, .unsupportedAluOperation,
    .stackUnderflow, .stackOverflow, .programTooLarge, .stepBudgetExceeded].map FaultKind.code = [1, 2, 3, 4, 5, 6, 7, 8] ∧
  ∀ s : State,
    (∀ record, s.faultRecord = some record → s.status.faultCode = some record.kind.code) ∧
    (s.faultRecord = none → s.status.faultCode = none) ∧
    s.status.flagsByte.toNat =
      (if s.flags.l then 4 else 0) + (if s.flags.g then 2 else 0) + (if s.flags.e then 1 else 0)
end

