-- ==== Sys2Proof/Laws/Decode.lean ====
section
/-! SUPPORT. The laws of the opcode map and of the decoder's operand shapes. -/

namespace Sys2Proof

/-- In a map with at most one row for a byte, a row is what the lookup finds. -/
theorem OpcodeMap.lookup_of_mem {m : OpcodeMap} (hm : (m.map Prod.fst).Nodup) {b : Byte} {h : Handler}
    (hmem : (b, h) ∈ m) : m.lookup b = some h := by
  induction m with
  | nil => cases hmem
  | cons row m ih =>
    obtain ⟨c, g⟩ := row
    rw [List.map_cons, List.nodup_cons] at hm
    rw [List.lookup_cons]
    rcases List.mem_cons.mp hmem with heq | hmem
    · cases heq
      simp
    · have hne : (b == c) = false := by
        rw [beq_eq_false_iff_ne]
        intro heq
        exact hm.1 (List.mem_map.mpr ⟨(b, h), hmem, heq⟩)
      rw [hne]
      exact ih hm.2 hmem

/-- The opcode a map gives a handler is in one of its rows. -/
theorem mem_of_opcodeOf {m : OpcodeMap} {h : Handler} {b : Byte} (hb : opcodeOf m h = some b) : (b, h) ∈ m := by
  unfold opcodeOf at hb
  obtain ⟨row, hrow, rfl⟩ := Option.map_eq_some_iff.mp hb
  have h1 := List.mem_of_find?_eq_some hrow
  have h2 := List.find?_some hrow
  simp only [decide_eq_true_eq] at h2
  subst h2
  exact h1

/-- The opcode a map gives a handler is looked up as that handler. -/
theorem lookup_opcodeOf {m : OpcodeMap} (hm : (m.map Prod.fst).Nodup) {h : Handler} {b : Byte}
    (hb : opcodeOf m h = some b) : m.lookup b = some h :=
  OpcodeMap.lookup_of_mem hm (mem_of_opcodeOf hb)

/-- The opcode byte of every instruction of this hardware has its own handler in the default map (R52). -/
theorem lookup_opcode (i : Instr) : defaultOpcodeMap.lookup i.opcode = some i.handler := by
  cases i <;> rfl

/-- An instruction's own operands are read back from behind its opcode (R49). -/
theorem decodeOperands_operands (opcode : Byte) (i : Instr) (rest : List Byte) :
    decodeOperands opcode i.handler (i.operands ++ rest) = .ok (i, rest) := by
  cases i <;> rfl

/-- A one-operand decode took one byte. -/
theorem takeOne_ok {opcode : Byte} {mk : Byte → Instr} {bytes rest : List Byte} {i : Instr}
    (h : takeOne opcode mk bytes = .ok (i, rest)) : ∃ a, bytes = a :: rest ∧ i = mk a := by
  cases bytes with
  | nil => cases h
  | cons a l =>
    cases h
    exact ⟨a, rfl, rfl⟩

/-- A two-operand decode took two bytes. -/
theorem takeTwo_ok {opcode : Byte} {mk : Byte → Byte → Except DecodeError Instr} {bytes rest : List Byte} {i : Instr}
    (h : takeTwo opcode mk bytes = .ok (i, rest)) : ∃ a b, bytes = a :: b :: rest ∧ mk a b = .ok i := by
  match bytes, h with
  | a :: b :: l, h =>
    simp only [takeTwo] at h
    split at h
    · rename_i j hj
      cases h
      exact ⟨a, b, rfl, hj⟩
    · cases h

/-- What the operand decoder answers is an instruction of the handler, and the bytes it took are its operands. -/
theorem decodeOperands_ok {opcode : Byte} {h : Handler} {bytes rest : List Byte} {i : Instr}
    (hd : decodeOperands opcode h bytes = .ok (i, rest)) : bytes = i.operands ++ rest ∧ i.handler = h := by
  cases h with
  | hlt =>
    cases hd
    exact ⟨rfl, rfl⟩
  | ret =>
    cases hd
    exact ⟨rfl, rfl⟩
  | ldi =>
    simp only [decodeOperands] at hd
    obtain ⟨a, b, rfl, h⟩ := takeTwo_ok hd
    cases h
    exact ⟨rfl, rfl⟩
  | alu op =>
    simp only [decodeOperands] at hd
    obtain ⟨a, b, rfl, h⟩ := takeTwo_ok hd
    cases op <;> cases h <;> exact ⟨rfl, rfl⟩
  | push | pop | prn | call | jmp | jeq | jne =>
    simp only [decodeOperands] at hd
    obtain ⟨a, rfl, rfl⟩ := takeOne_ok hd
    exact ⟨rfl, rfl⟩

end Sys2Proof
end

