-- ==== Sys2Proof/Laws/Memory.lean ====
section
/-! SUPPORT. The laws of the memory array: a read returns the latest write (R38), and every memory operation keeps the
canonical form and the range of the listed cells. -/

namespace Sys2Proof.Machine

@[simp] theorem Memory.read_nil (x : Nat) : Memory.read [] x = Memory.unlisted := rfl

theorem Memory.read_of_lt {m : Memory} {x : Nat} (h : ∀ c ∈ m, x < c.1) : m.read x = Memory.unlisted := by
  induction m with
  | nil => rfl
  | cons c m ih =>
    obtain ⟨a, v⟩ := c
    have hx : a ≠ x := by
      have := h (a, v) (by simp)
      simp only at this
      omega
    rw [Memory.read, if_neg hx]
    exact ih fun d hd => h d (by simp [hd])

theorem Memory.wf_tail {c : Host.Cell} {m : Memory} (h : Memory.wf (c :: m)) : m.wf :=
  ⟨(List.pairwise_cons.mp h.1).2, fun d hd => h.2 d (by simp [hd])⟩

/-- A cell reads as the last byte written to it, every other cell as before (R38). -/
theorem Memory.read_write {m : Memory} (h : m.wf) (x y : Nat) (v : Byte) :
    (m.write x v).read y = if y = x then v else m.read y := by
  induction m with
  | nil =>
    by_cases hv : v = Memory.unlisted <;> by_cases hy : y = x
    · simp [Memory.write, hv]
    · simp [Memory.write, hv]
    · simp [Memory.write, Memory.read, hv, hy]
    · simp [Memory.write, Memory.read, hv, hy, Ne.symm hy]
  | cons c m ih =>
    obtain ⟨a, w⟩ := c
    have hlt : ∀ d ∈ m, a < d.1 := fun d hd => (List.pairwise_cons.mp h.1).1 d hd
    have hih := ih (Memory.wf_tail h)
    unfold Memory.write
    by_cases hxa : x < a
    · rw [if_pos hxa]
      by_cases hv : v = Memory.unlisted
      · rw [if_pos hv]
        by_cases hy : y = x
        · rw [if_pos hy, hv, hy]
          refine Memory.read_of_lt fun d hd => ?_
          rcases List.mem_cons.mp hd with rfl | hd
          · exact hxa
          · have := hlt d hd
            omega
        · rw [if_neg hy]
      · rw [if_neg hv, Memory.read]
        by_cases hy : y = x
        · simp [hy]
        · simp [hy, Ne.symm hy]
    · rw [if_neg hxa]
      by_cases hxe : x = a
      · subst hxe
        rw [if_pos rfl]
        by_cases hv : v = Memory.unlisted
        · rw [if_pos hv]
          by_cases hy : y = x
          · rw [if_pos hy, hv, hy]
            exact Memory.read_of_lt hlt
          · rw [if_neg hy, Memory.read, if_neg (Ne.symm hy)]
        · rw [if_neg hv, Memory.read]
          by_cases hy : y = x
          · simp [hy]
          · simp [hy, Ne.symm hy, Memory.read]
      · rw [if_neg hxe, Memory.read, Memory.read]
        by_cases hay : a = y
        · subst hay
          simp [Ne.symm hxe]
        · rw [if_neg hay, if_neg hay]
          exact hih

/-- Every cell a write lists was listed before or is the one written. -/
theorem Memory.mem_write {m : Memory} {x : Nat} {v : Byte} {c : Host.Cell} (h : c ∈ m.write x v) :
    c ∈ m ∨ c = (x, v) ∧ v ≠ Memory.unlisted := by
  induction m with
  | nil =>
    unfold Memory.write at h
    split at h
    · simp at h
    · rename_i hv
      exact .inr ⟨by simpa using h, hv⟩
  | cons d m ih =>
    obtain ⟨a, w⟩ := d
    unfold Memory.write at h
    split at h
    · split at h
      · exact .inl h
      · rename_i hv
        rcases List.mem_cons.mp h with h | h
        · exact .inr ⟨h, hv⟩
        · exact .inl h
    · split at h
      · split at h
        · exact .inl (List.mem_cons_of_mem _ h)
        · rename_i hv
          rcases List.mem_cons.mp h with h | h
          · exact .inr ⟨h, hv⟩
          · exact .inl (List.mem_cons_of_mem _ h)
      · rcases List.mem_cons.mp h with h | h
        · exact .inl (h ▸ List.mem_cons_self ..)
        · rcases ih h with h | h
          · exact .inl (List.mem_cons_of_mem _ h)
          · exact .inr h

/-- A write keeps the canonical form. -/
theorem Memory.wf_write {m : Memory} (h : m.wf) (x : Nat) (v : Byte) : (m.write x v).wf := by
  refine ⟨?_, ?_⟩
  · induction m with
    | nil =>
      unfold Memory.write
      split <;> simp
    | cons c m ih =>
      obtain ⟨a, w⟩ := c
      obtain ⟨hlt, hp⟩ := List.pairwise_cons.mp h.1
      have hih := ih (Memory.wf_tail h)
      unfold Memory.write
      split
      · rename_i hxa
        split
        · exact h.1
        · refine List.pairwise_cons.mpr ⟨fun d hd => ?_, h.1⟩
          rcases List.mem_cons.mp hd with rfl | hd
          · exact hxa
          · exact Nat.lt_trans hxa (hlt d hd)
      · rename_i hxa
        split
        · rename_i hxe
          subst hxe
          split
          · exact hp
          · exact List.pairwise_cons.mpr ⟨hlt, hp⟩
        · rename_i hxe
          refine List.pairwise_cons.mpr ⟨fun d hd => ?_, hih⟩
          rcases Memory.mem_write hd with hd | ⟨rfl, -⟩
          · exact hlt d hd
          · simp only
            omega
  · intro c hc
    rcases Memory.mem_write hc with hc | ⟨rfl, hv⟩
    · exact h.2 c hc
    · exact hv

/-- A write to a cell that exists lists only cells that exist. -/
theorem Memory.within_write {m : Memory} {n x : Nat} (h : m.within n) (hx : x < n) (v : Byte) :
    (m.write x v).within n := by
  intro c hc
  rcases Memory.mem_write hc with hc | ⟨rfl, -⟩
  · exact h c hc
  · exact hx

theorem Memory.wf_writeAll {m : Memory} (h : m.wf) (a : Nat) (vs : List Byte) : (m.writeAll a vs).wf := by
  induction vs generalizing m a with
  | nil => exact h
  | cons v vs ih => exact ih (Memory.wf_write h a v) (a + 1)

theorem Memory.within_writeAll {m : Memory} {n a : Nat} {vs : List Byte} (h : m.within n)
    (ha : a + vs.length ≤ n) : (m.writeAll a vs).within n := by
  induction vs generalizing m a with
  | nil => exact h
  | cons v vs ih =>
    rw [List.length_cons] at ha
    exact ih (Memory.within_write h (by omega) v) (by omega)

/-- A run of consecutive writes sets exactly its own cells (R113). -/
theorem Memory.read_writeAll {m : Memory} (h : m.wf) (a y : Nat) (vs : List Byte) :
    (m.writeAll a vs).read y = if a ≤ y then (vs[y - a]?).getD (m.read y) else m.read y := by
  induction vs generalizing m a with
  | nil => simp [Memory.writeAll]
  | cons v vs ih =>
    rw [Memory.writeAll, ih (Memory.wf_write h a v) (a + 1), Memory.read_write h]
    by_cases hy : y = a
    · subst hy
      simp
    · by_cases hle : a ≤ y
      · have h1 : a + 1 ≤ y := by omega
        have h2 : y - a = (y - (a + 1)) + 1 := by omega
        rw [if_pos h1, if_pos hle, if_neg hy, h2, List.getElem?_cons_succ]
      · have h1 : ¬ a + 1 ≤ y := by omega
        rw [if_neg h1, if_neg hle, if_neg hy]

end Sys2Proof.Machine
end

