-- ==== Sys2Proof/Laws/State.lean ====
section
/-! SUPPORT. One lemma per field of State per named update: what the update does to the field. -/

namespace Sys2Proof.Machine

variable (s : State)

@[simp] theorem State.writeReg_cfg (r : RegIdx) (v : Byte) : (s.writeReg r v).cfg = s.cfg := rfl
@[simp] theorem State.writeReg_regs (r : RegIdx) (v : Byte) : (s.writeReg r v).regs = s.regs.set r.val v r.isLt := rfl
@[simp] theorem State.writeReg_pc (r : RegIdx) (v : Byte) : (s.writeReg r v).pc = s.pc := rfl
@[simp] theorem State.writeReg_flags (r : RegIdx) (v : Byte) : (s.writeReg r v).flags = s.flags := rfl
@[simp] theorem State.writeReg_mem (r : RegIdx) (v : Byte) : (s.writeReg r v).mem = s.mem := rfl
@[simp] theorem State.writeReg_runState (r : RegIdx) (v : Byte) : (s.writeReg r v).runState = s.runState := rfl
@[simp] theorem State.writeReg_faultRecord (r : RegIdx) (v : Byte) : (s.writeReg r v).faultRecord = s.faultRecord := rfl
@[simp] theorem State.writeReg_steps (r : RegIdx) (v : Byte) : (s.writeReg r v).steps = s.steps := rfl
@[simp] theorem State.writeReg_output (r : RegIdx) (v : Byte) : (s.writeReg r v).output = s.output := rfl

@[simp] theorem State.writeFlags_cfg (f : Flags) : (s.writeFlags f).cfg = s.cfg := rfl
@[simp] theorem State.writeFlags_regs (f : Flags) : (s.writeFlags f).regs = s.regs := rfl
@[simp] theorem State.writeFlags_pc (f : Flags) : (s.writeFlags f).pc = s.pc := rfl
@[simp] theorem State.writeFlags_flags (f : Flags) : (s.writeFlags f).flags = f := rfl
@[simp] theorem State.writeFlags_mem (f : Flags) : (s.writeFlags f).mem = s.mem := rfl
@[simp] theorem State.writeFlags_runState (f : Flags) : (s.writeFlags f).runState = s.runState := rfl
@[simp] theorem State.writeFlags_faultRecord (f : Flags) : (s.writeFlags f).faultRecord = s.faultRecord := rfl
@[simp] theorem State.writeFlags_steps (f : Flags) : (s.writeFlags f).steps = s.steps := rfl
@[simp] theorem State.writeFlags_output (f : Flags) : (s.writeFlags f).output = s.output := rfl

@[simp] theorem State.emit_cfg (v : Byte) : (s.emit v).cfg = s.cfg := rfl
@[simp] theorem State.emit_regs (v : Byte) : (s.emit v).regs = s.regs := rfl
@[simp] theorem State.emit_pc (v : Byte) : (s.emit v).pc = s.pc := rfl
@[simp] theorem State.emit_flags (v : Byte) : (s.emit v).flags = s.flags := rfl
@[simp] theorem State.emit_mem (v : Byte) : (s.emit v).mem = s.mem := rfl
@[simp] theorem State.emit_runState (v : Byte) : (s.emit v).runState = s.runState := rfl
@[simp] theorem State.emit_faultRecord (v : Byte) : (s.emit v).faultRecord = s.faultRecord := rfl
@[simp] theorem State.emit_steps (v : Byte) : (s.emit v).steps = s.steps := rfl
@[simp] theorem State.emit_output (v : Byte) : (s.emit v).output = s.output ++ [v] := rfl

@[simp] theorem State.halt_cfg : s.halt.cfg = s.cfg := rfl
@[simp] theorem State.halt_regs : s.halt.regs = s.regs := rfl
@[simp] theorem State.halt_pc : s.halt.pc = s.pc := rfl
@[simp] theorem State.halt_flags : s.halt.flags = s.flags := rfl
@[simp] theorem State.halt_mem : s.halt.mem = s.mem := rfl
@[simp] theorem State.halt_runState : s.halt.runState = .halted := rfl
@[simp] theorem State.halt_faultRecord : s.halt.faultRecord = s.faultRecord := rfl
@[simp] theorem State.halt_steps : s.halt.steps = s.steps := rfl
@[simp] theorem State.halt_output : s.halt.output = s.output := rfl

@[simp] theorem State.setCell_cfg (a : Nat) (v : Byte) : (s.setCell a v).cfg = s.cfg := rfl
@[simp] theorem State.setCell_regs (a : Nat) (v : Byte) : (s.setCell a v).regs = s.regs := rfl
@[simp] theorem State.setCell_pc (a : Nat) (v : Byte) : (s.setCell a v).pc = s.pc := rfl
@[simp] theorem State.setCell_flags (a : Nat) (v : Byte) : (s.setCell a v).flags = s.flags := rfl
@[simp] theorem State.setCell_mem (a : Nat) (v : Byte) : (s.setCell a v).mem = s.mem.write a v := rfl
@[simp] theorem State.setCell_runState (a : Nat) (v : Byte) : (s.setCell a v).runState = s.runState := rfl
@[simp] theorem State.setCell_faultRecord (a : Nat) (v : Byte) : (s.setCell a v).faultRecord = s.faultRecord := rfl
@[simp] theorem State.setCell_steps (a : Nat) (v : Byte) : (s.setCell a v).steps = s.steps := rfl
@[simp] theorem State.setCell_output (a : Nat) (v : Byte) : (s.setCell a v).output = s.output := rfl

@[simp] theorem State.updatePc_cfg (mode : PcMode) : (s.updatePc mode).cfg = s.cfg := rfl
@[simp] theorem State.updatePc_regs (mode : PcMode) : (s.updatePc mode).regs = s.regs := rfl
@[simp] theorem State.updatePc_pc (mode : PcMode) : (s.updatePc mode).pc = s.pcNext mode := rfl
@[simp] theorem State.updatePc_flags (mode : PcMode) : (s.updatePc mode).flags = s.flags := rfl
@[simp] theorem State.updatePc_mem (mode : PcMode) : (s.updatePc mode).mem = s.mem := rfl
@[simp] theorem State.updatePc_runState (mode : PcMode) : (s.updatePc mode).runState = s.runState := rfl
@[simp] theorem State.updatePc_faultRecord (mode : PcMode) : (s.updatePc mode).faultRecord = s.faultRecord := rfl
@[simp] theorem State.updatePc_steps (mode : PcMode) : (s.updatePc mode).steps = s.steps := rfl
@[simp] theorem State.updatePc_output (mode : PcMode) : (s.updatePc mode).output = s.output := rfl

@[simp] theorem State.decSp_cfg : s.decSp.cfg = s.cfg := rfl
@[simp] theorem State.decSp_pc : s.decSp.pc = s.pc := rfl
@[simp] theorem State.decSp_flags : s.decSp.flags = s.flags := rfl
@[simp] theorem State.decSp_mem : s.decSp.mem = s.mem := rfl
@[simp] theorem State.decSp_runState : s.decSp.runState = s.runState := rfl
@[simp] theorem State.decSp_faultRecord : s.decSp.faultRecord = s.faultRecord := rfl
@[simp] theorem State.decSp_steps : s.decSp.steps = s.steps := rfl
@[simp] theorem State.decSp_output : s.decSp.output = s.output := rfl

@[simp] theorem State.incSp_cfg : s.incSp.cfg = s.cfg := rfl
@[simp] theorem State.incSp_pc : s.incSp.pc = s.pc := rfl
@[simp] theorem State.incSp_flags : s.incSp.flags = s.flags := rfl
@[simp] theorem State.incSp_mem : s.incSp.mem = s.mem := rfl
@[simp] theorem State.incSp_runState : s.incSp.runState = s.runState := rfl
@[simp] theorem State.incSp_faultRecord : s.incSp.faultRecord = s.faultRecord := rfl
@[simp] theorem State.incSp_steps : s.incSp.steps = s.steps := rfl
@[simp] theorem State.incSp_output : s.incSp.output = s.output := rfl

@[simp] theorem State.latchFault_cfg (record : FaultRecord) : (s.latchFault record).cfg = s.cfg := rfl
@[simp] theorem State.latchFault_regs (record : FaultRecord) : (s.latchFault record).regs = s.regs := rfl
@[simp] theorem State.latchFault_pc (record : FaultRecord) : (s.latchFault record).pc = s.pc := rfl
@[simp] theorem State.latchFault_flags (record : FaultRecord) : (s.latchFault record).flags = s.flags := rfl
@[simp] theorem State.latchFault_mem (record : FaultRecord) : (s.latchFault record).mem = s.mem := rfl
@[simp] theorem State.latchFault_runState (record : FaultRecord) : (s.latchFault record).runState = .faulted := rfl
@[simp] theorem State.latchFault_faultRecord (record : FaultRecord) : (s.latchFault record).faultRecord = some record := rfl
@[simp] theorem State.latchFault_steps (record : FaultRecord) : (s.latchFault record).steps = s.steps := rfl
@[simp] theorem State.latchFault_output (record : FaultRecord) : (s.latchFault record).output = s.output := rfl

@[simp] theorem State.takeFault_cfg (k : FaultKind) : (s.takeFault k).cfg = s.cfg := rfl
@[simp] theorem State.takeFault_regs (k : FaultKind) : (s.takeFault k).regs = s.regs := rfl
@[simp] theorem State.takeFault_pc (k : FaultKind) : (s.takeFault k).pc = s.pc := rfl
@[simp] theorem State.takeFault_flags (k : FaultKind) : (s.takeFault k).flags = s.flags := rfl
@[simp] theorem State.takeFault_mem (k : FaultKind) : (s.takeFault k).mem = s.mem := rfl
@[simp] theorem State.takeFault_runState (k : FaultKind) : (s.takeFault k).runState = .faulted := rfl
@[simp] theorem State.takeFault_faultRecord (k : FaultKind) : (s.takeFault k).faultRecord = some { kind := k, pc := s.pc, opcode := s.opcodeAtPc } := rfl
@[simp] theorem State.takeFault_steps (k : FaultKind) : (s.takeFault k).steps = s.steps := rfl
@[simp] theorem State.takeFault_output (k : FaultKind) : (s.takeFault k).output = s.output := rfl

end Sys2Proof.Machine
end

