-- ==== Sys2Proof/Laws/Registers.lean ====
section
/-! SUPPORT. The laws of the register file (R13 to R15): a read returns the latest write, and the updates that are not
register writes leave every register alone. -/

namespace Sys2Proof.Machine

variable (s : State)

theorem State.readReg_writeReg (r q : RegIdx) (v : Byte) :
    (s.writeReg r v).readReg q = if q = r then v else s.readReg q := by
  simp only [State.readReg, State.writeReg, Vector.get_eq_getElem, Vector.getElem_set, Fin.ext_iff]
  by_cases h : r.val = q.val
  · simp [h]
  · simp [h, Ne.symm h]

@[simp] theorem State.readReg_writeReg_same (r : RegIdx) (v : Byte) : (s.writeReg r v).readReg r = v := by
  simp [State.readReg_writeReg]

theorem State.readReg_writeReg_other {r q : RegIdx} (h : q ≠ r) (v : Byte) :
    (s.writeReg r v).readReg q = s.readReg q := by
  simp [State.readReg_writeReg, h]

@[simp] theorem State.readReg_writeFlags (f : Flags) (r : RegIdx) : (s.writeFlags f).readReg r = s.readReg r := rfl
@[simp] theorem State.readReg_emit (v : Byte) (r : RegIdx) : (s.emit v).readReg r = s.readReg r := rfl
@[simp] theorem State.readReg_halt (r : RegIdx) : s.halt.readReg r = s.readReg r := rfl
@[simp] theorem State.readReg_setCell (a : Nat) (v : Byte) (r : RegIdx) : (s.setCell a v).readReg r = s.readReg r := rfl
@[simp] theorem State.readReg_updatePc (mode : PcMode) (r : RegIdx) : (s.updatePc mode).readReg r = s.readReg r := rfl
@[simp] theorem State.readReg_takeFault (k : FaultKind) (r : RegIdx) : (s.takeFault k).readReg r = s.readReg r := rfl

@[simp] theorem State.sp_decSp : s.decSp.sp = s.sp - 1 := by simp [State.sp, State.decSp]

@[simp] theorem State.sp_incSp : s.incSp.sp = s.sp + 1 := by simp [State.sp, State.incSp]

theorem State.readReg_decSp (r : RegIdx) : s.decSp.readReg r = if r = spIndex then s.sp - 1 else s.readReg r := by
  simp [State.decSp, State.readReg_writeReg]

theorem State.readReg_incSp (r : RegIdx) : s.incSp.readReg r = if r = spIndex then s.sp + 1 else s.readReg r := by
  simp [State.incSp, State.readReg_writeReg]

/-- SP below a non-zero value does not wrap (R80). -/
theorem State.toNat_sp_decSp (h : s.sp ≠ 0) : s.decSp.sp.toNat = s.sp.toNat - 1 := by
  have h0 : s.sp.toNat ≠ 0 := fun h' => h (by apply BitVec.eq_of_toNat_eq; simpa using h')
  rw [State.sp_decSp, BitVec.toNat_sub]
  have := s.sp.isLt
  have h1 : (1 : Byte).toNat = 1 := rfl
  omega

/-- SP below the top of stack does not wrap when a pop raises it (R82). -/
theorem State.toNat_sp_incSp (h : s.sp.toNat < 255) : s.incSp.sp.toNat = s.sp.toNat + 1 := by
  rw [State.sp_incSp, BitVec.toNat_add]
  have h1 : (1 : Byte).toNat = 1 := rfl
  omega

end Sys2Proof.Machine
end

