-- ==== Sys2Proof/Laws/Handlers.lean ====
section
/-! SUPPORT. What the shared operations of the handlers can answer: the operand checks, the end of a handler, the checks
and writes of the stack. Later proofs cite these and unfold nothing of them. -/

namespace Sys2Proof.Machine

/-! ### Operand checks -/

@[simp] theorem toNat_regOperand (r : RegIdx) : (regOperand r).toNat = r.val := by
  have := r.isLt
  simp only [regOperand, BitVec.toNat_ofNat]
  omega

/-- Different registers have different operand bytes (R57). -/
theorem regOperand_inj {r q : RegIdx} (h : regOperand r = regOperand q) : r = q := by
  have h' := congrArg BitVec.toNat h
  rw [toNat_regOperand, toNat_regOperand] at h'
  exact Fin.ext h'

@[simp] theorem checkreg_regOperand (r : RegIdx) : checkreg (regOperand r) = .ok r := by
  have h : (regOperand r).toNat < 8 := by simp
  simp [checkreg]

@[simp] theorem isRegIndex_regOperand (r : RegIdx) : isRegIndex (regOperand r) = true := by
  simp [isRegIndex]

/-- An operand byte names a register, and is that register's byte, or the check faults (R50). -/
theorem checkreg_cases (b : Byte) :
    (∃ r, b = regOperand r ∧ checkreg b = .ok r ∧ isRegIndex b = true) ∨
      (checkreg b = .error .registerIndexOutOfRange ∧ isRegIndex b = false) := by
  by_cases h : b.toNat < 8
  · refine .inl ⟨⟨b.toNat, h⟩, ?_, by simp [checkreg, h], by simp [isRegIndex, h]⟩
    apply BitVec.eq_of_toNat_eq
    simp
  · exact .inr ⟨by simp [checkreg, h], by simp [isRegIndex, h]⟩

/-- The one-register form is one handler body that checks its operand first (R65). -/
theorem withReg_eq_conclude (b : Byte) (s : State) (handler : RegIdx → Except FaultKind State) :
    withReg b s handler = s.conclude (checkreg b >>= handler) := by
  unfold withReg
  cases checkreg b <;> rfl

/-- The two-register form is one handler body that checks both operands first, in order (R65). -/
theorem withTwoRegs_eq_conclude (b c : Byte) (s : State) (handler : RegIdx → RegIdx → Except FaultKind State) :
    withTwoRegs b c s handler = s.conclude (checkreg b >>= fun r => checkreg c >>= fun q => handler r q) := by
  unfold withTwoRegs
  rw [withReg_eq_conclude]
  congr 2
  funext r
  cases checkreg c <;> rfl

@[simp] theorem withReg_regOperand (r : RegIdx) (s : State) (handler : RegIdx → Except FaultKind State) :
    withReg (regOperand r) s handler = s.conclude (handler r) := by
  simp [withReg]

@[simp] theorem withTwoRegs_regOperand (r q : RegIdx) (s : State)
    (handler : RegIdx → RegIdx → Except FaultKind State) :
    withTwoRegs (regOperand r) (regOperand q) s handler = s.conclude (handler r q) := by
  simp [withTwoRegs]

/-! ### The end of a handler -/

@[simp] theorem State.conclude_ok (s t : State) : s.conclude (.ok t) = .next t := rfl

@[simp] theorem State.conclude_error (s : State) (k : FaultKind) : s.conclude (.error k) = .next (s.takeFault k) := rfl

/-- A handler answers its own effect, or the fault entered from the state it began in (R68). -/
theorem State.conclude_cases {s t : State} {e : Except FaultKind State} (h : s.conclude e = .next t) :
    e = .ok t ∨ ∃ k, e = .error k ∧ t = s.takeFault k := by
  cases e with
  | ok u =>
    cases h
    exact .inl rfl
  | error k =>
    cases h
    exact .inr ⟨k, rfl, rfl⟩

/-! ### Peeling a handler body apart -/

theorem Except.bind_ok_iff {ε α β : Type} {x : Except ε α} {f : α → Except ε β} {b : β} :
    (x >>= f) = .ok b ↔ ∃ a, x = .ok a ∧ f a = .ok b := by
  cases x with
  | ok a => exact ⟨fun h => ⟨a, rfl, h⟩, fun ⟨_, h1, h2⟩ => by cases h1; exact h2⟩
  | error e => exact ⟨fun h => (by cases h), fun ⟨_, h1, _⟩ => (by cases h1)⟩

theorem Except.bind_error_iff {ε α β : Type} {x : Except ε α} {f : α → Except ε β} {e : ε} :
    (x >>= f) = .error e ↔ x = .error e ∨ ∃ a, x = .ok a ∧ f a = .error e := by
  cases x with
  | ok a =>
    refine ⟨fun h => .inr ⟨a, rfl, h⟩, ?_⟩
    rintro (h | ⟨_, h1, h2⟩)
    · cases h
    · cases h1
      exact h2
  | error e' =>
    refine ⟨fun h => .inl (by cases h; rfl), ?_⟩
    rintro (h | ⟨_, h1, _⟩)
    · cases h
      rfl
    · cases h1

/-! ### Memory accesses and the stack -/

theorem State.memRead_ok_iff {s : State} {a : Nat} {v : Byte} :
    s.memRead a = .ok v ↔ a < s.cfg.memSize ∧ v = s.readCell a := by
  unfold State.memRead State.readCell
  split
  · rename_i h
    exact ⟨fun hv => ⟨h, by cases hv; rfl⟩, fun ⟨_, hv⟩ => hv ▸ rfl⟩
  · rename_i h
    exact ⟨fun hv => (by cases hv), fun ⟨h', _⟩ => absurd h' h⟩

theorem State.memWrite_ok_iff {s t : State} {a : Nat} {v : Byte} :
    s.memWrite a v = .ok t ↔ a < s.cfg.memSize ∧ t = s.setCell a v := by
  unfold State.memWrite
  split
  · rename_i h
    exact ⟨fun ht => ⟨h, by cases ht; rfl⟩, fun ⟨_, ht⟩ => ht ▸ rfl⟩
  · rename_i h
    exact ⟨fun ht => (by cases ht), fun ⟨h', _⟩ => absurd h' h⟩

theorem State.checkAddress_ok_iff {s : State} {a : Nat} {u : Unit} :
    s.checkAddress a = .ok u ↔ a < s.cfg.memSize := by
  unfold State.checkAddress
  split <;> simp_all

theorem State.checkPushRoom_ok_iff {s : State} {u : Unit} : s.checkPushRoom = .ok u ↔ s.sp ≠ 0 := by
  unfold State.checkPushRoom
  split <;> simp_all

theorem State.checkPopRoom_ok_iff {s : State} {u : Unit} :
    s.checkPopRoom = .ok u ↔ s.sp.toNat < s.cfg.stackTop.toNat := by
  unfold State.checkPopRoom
  split <;> simp_all

/-- A push that completes writes SP and the cell below it, nothing else (R81). -/
theorem State.push_ok_iff {s t : State} {value : State → Byte} :
    s.push value = .ok t ↔
      s.decSp.sp.toNat < s.cfg.memSize ∧ t = s.decSp.setCell s.decSp.sp.toNat (value s.decSp) := by
  unfold State.push
  rw [State.memWrite_ok_iff]
  rfl

/-! ### The faults of the checks -/

theorem State.memRead_error {s : State} {a : Nat} {k : FaultKind} (h : s.memRead a = .error k) :
    k = .memoryAddressOutOfRange := by
  unfold State.memRead at h
  split at h <;> cases h
  rfl

theorem State.memWrite_error {s : State} {a : Nat} {v : Byte} {k : FaultKind} (h : s.memWrite a v = .error k) :
    k = .memoryAddressOutOfRange := by
  unfold State.memWrite at h
  split at h <;> cases h
  rfl

theorem State.checkAddress_error {s : State} {a : Nat} {k : FaultKind} (h : s.checkAddress a = .error k) :
    k = .memoryAddressOutOfRange := by
  unfold State.checkAddress at h
  split at h <;> cases h
  rfl

theorem State.checkPushRoom_error {s : State} {k : FaultKind} (h : s.checkPushRoom = .error k) :
    k = .stackOverflow := by
  unfold State.checkPushRoom at h
  split at h <;> cases h
  rfl

theorem State.checkPopRoom_error {s : State} {k : FaultKind} (h : s.checkPopRoom = .error k) :
    k = .stackUnderflow := by
  unfold State.checkPopRoom at h
  split at h <;> cases h
  rfl

end Sys2Proof.Machine
end

