-- ==== Sys2Proof/Laws/Exec.lean ====
section
/-! SUPPORT. What `exec` can do, said once: an instruction completes with the writes its rule lists, or faults and leaves
everything but the run state and the record. -/

namespace Sys2Proof.Machine

/-- The completions of each instruction: its rule's conditions and its rule's writes (R76 to R94). -/
inductive Completed (s : State) : Instr → State → Prop
  | hlt : Completed s .hlt (s.halt.updatePc .hold)
  | ret (room : s.sp.toNat < s.cfg.stackTop.toNat) (cell : s.sp.toNat < s.cfg.memSize) :
      Completed s .ret (s.incSp.updatePc (.fromStack (s.readCell s.sp.toNat)))
  | push {b : Byte} {r : RegIdx} (operand : b = regOperand r) (room : s.sp ≠ 0)
      (cell : s.decSp.sp.toNat < s.cfg.memSize) :
      Completed s (.push b) ((s.decSp.setCell s.decSp.sp.toNat (s.decSp.readReg r)).updatePc (.advance 1))
  | pop {b : Byte} {r : RegIdx} (operand : b = regOperand r) (room : s.sp.toNat < s.cfg.stackTop.toNat)
      (cell : s.sp.toNat < s.cfg.memSize) :
      Completed s (.pop b) (((s.writeReg r (s.readCell s.sp.toNat)).incSp).updatePc (.advance 1))
  | prn {b : Byte} {r : RegIdx} (operand : b = regOperand r) :
      Completed s (.prn b) ((s.emit (s.readReg r)).updatePc (.advance 1))
  | call {b : Byte} {r : RegIdx} (operand : b = regOperand r) (room : s.sp ≠ 0) (ret : s.returnAddress < s.cfg.memSize)
      (cell : s.decSp.sp.toNat < s.cfg.memSize) :
      Completed s (.call b)
        ((s.decSp.setCell s.decSp.sp.toNat (BitVec.ofNat 8 s.returnAddress)).updatePc (.jump r))
  | jmp {b : Byte} {r : RegIdx} (operand : b = regOperand r) : Completed s (.jmp b) (s.updatePc (.jump r))
  | jeq {b : Byte} {r : RegIdx} (operand : b = regOperand r) :
      Completed s (.jeq b) (s.updatePc (.cond s.flags.e r))
  | jne {b : Byte} {r : RegIdx} (operand : b = regOperand r) :
      Completed s (.jne b) (s.updatePc (.cond (!s.flags.e) r))
  | ldi {b : Byte} {r : RegIdx} (operand : b = regOperand r) (v : Byte) :
      Completed s (.ldi b v) ((s.writeReg r v).updatePc (.advance 2))
  | add {p q : Byte} {a b : RegIdx} (first : p = regOperand a) (second : q = regOperand b) :
      Completed s (.add p q)
        ((s.writeReg a (BitVec.ofNat 8 (((s.readReg a).toNat + (s.readReg b).toNat) % 256))).updatePc (.advance 2))
  | mul {p q : Byte} {a b : RegIdx} (first : p = regOperand a) (second : q = regOperand b) :
      Completed s (.mul p q)
        ((s.writeReg a (BitVec.ofNat 8 (((s.readReg a).toNat * (s.readReg b).toNat) % 256))).updatePc (.advance 2))
  | cmp {p q : Byte} {a b : RegIdx} (first : p = regOperand a) (second : q = regOperand b) :
      Completed s (.cmp p q)
        ((s.writeFlags (Flags.compare (s.readReg a) (s.readReg b))).updatePc (.advance 2))

/-- Every meaning is one handler body with one end (R68). -/
theorem exec_eq_conclude (i : Instr) (s : State) : ∃ e, exec i s = s.conclude e := by
  cases i <;>
    simp only [exec, execHlt, execRet, execPush, execPop, execPrn, execCall, execJmp, execJeq, execJne, execLdi, execAdd,
      execMul, execCmp, aluStep, withReg_eq_conclude, withTwoRegs_eq_conclude] <;>
    exact ⟨_, rfl⟩

/-- Every meaning answers a next state: it completes or takes its fault (R68, R72). -/
theorem exec_answers (i : Instr) (s : State) : ∃ t, exec i s = .next t := by
  obtain ⟨e, he⟩ := exec_eq_conclude i s
  rw [he]
  cases e <;> exact ⟨_, rfl⟩

/-- The faults a handler can raise, its operand checks included (R70, items 5, 7 and 8). -/
def handlerFaults : List FaultKind :=
  [.registerIndexOutOfRange, .stackOverflow, .stackUnderflow, .memoryAddressOutOfRange]

/-- The two ends of a one-register instruction: its body on the register it names, or a fault of its operand check or of
its body. -/
theorem withReg_next_cases {b : Byte} {s t : State} {handler : RegIdx → Except FaultKind State}
    (h : withReg b s handler = .next t) :
    (∃ r, b = regOperand r ∧ handler r = .ok t) ∨
      ∃ k, (k = .registerIndexOutOfRange ∨ ∃ r, handler r = .error k) ∧ t = s.takeFault k := by
  rcases checkreg_cases b with ⟨r, rfl, -, -⟩ | ⟨he, -⟩
  · rw [withReg_regOperand] at h
    rcases State.conclude_cases h with h | ⟨k, hk, ht⟩
    · exact .inl ⟨r, rfl, h⟩
    · exact .inr ⟨k, .inr ⟨r, hk⟩, ht⟩
  · rw [withReg, he] at h
    cases h
    exact .inr ⟨_, .inl rfl, rfl⟩

/-- A one-register instruction whose body raises nothing ends in its body's effect or in the fault of its operand. -/
theorem withReg_ok_cases {b : Byte} {s t : State} {f : RegIdx → State}
    (h : withReg b s (fun r => .ok (f r)) = .next t) :
    (∃ r, b = regOperand r ∧ t = f r) ∨ ∃ k ∈ handlerFaults, t = s.takeFault k := by
  rcases withReg_next_cases h with ⟨r, rfl, hb⟩ | ⟨k, hk | ⟨r, hk⟩, ht⟩
  · cases hb
    exact .inl ⟨r, rfl, rfl⟩
  · exact .inr ⟨k, by simp [handlerFaults, hk], ht⟩
  · cases hk

/-- The two ends of an ALU instruction: one ALU operation on the registers it names, or a fault of its operands or of the
operation. -/
theorem aluStep_next_cases {op : AluOp} {ra rb : Byte} {s t : State} (h : aluStep op ra rb s = .next t) :
    (∃ a b res, ra = regOperand a ∧ rb = regOperand b ∧ aluCompute op (s.readReg a) (s.readReg b) = .ok res ∧
        t = (s.writeAluResult a res).updatePc (.advance 2)) ∨
      ∃ k, (k = .registerIndexOutOfRange ∨ ∃ a b, aluCompute op a b = .error k) ∧ t = s.takeFault k := by
  rcases withReg_next_cases h with ⟨a, rfl, hbody⟩ | ⟨k, hk | ⟨a, hbody⟩, ht⟩
  · rcases checkreg_cases rb with ⟨b, rfl, hb, -⟩ | ⟨he, -⟩
    · simp only [hb] at hbody
      cases hc : aluCompute op (s.readReg a) (s.readReg b) with
      | ok res =>
        simp only [hc] at hbody
        cases hbody
        exact .inl ⟨a, b, res, rfl, rfl, hc, rfl⟩
      | error k =>
        simp only [hc] at hbody
        cases hbody
    · simp only [he] at hbody
      cases hbody
  · exact .inr ⟨k, .inl hk, ht⟩
  · rcases checkreg_cases rb with ⟨b, rfl, hb, -⟩ | ⟨he, -⟩
    · simp only [hb] at hbody
      cases hc : aluCompute op (s.readReg a) (s.readReg b) with
      | ok res =>
        simp only [hc] at hbody
        cases hbody
      | error k' =>
        simp only [hc] at hbody
        cases hbody
        exact .inr ⟨k, .inr ⟨_, _, hc⟩, ht⟩
    · simp only [he] at hbody
      cases hbody
      exact .inr ⟨_, .inl rfl, ht⟩

/-- What an instruction can do: complete as its rule says, or fault as a handler can (R68, R70). -/
theorem exec_next_cases {i : Instr} {s t : State} (h : exec i s = .next t) :
    Completed s i t ∨ ∃ k ∈ handlerFaults, t = s.takeFault k := by
  cases i with
  | hlt =>
    cases h
    exact .inl .hlt
  | ret =>
    rcases State.conclude_cases h with hb | ⟨k, hb, ht⟩
    · obtain ⟨u, h1, hb⟩ := Except.bind_ok_iff.mp hb
      obtain ⟨v, h2, hb⟩ := Except.bind_ok_iff.mp hb
      obtain ⟨h3, rfl⟩ := State.memRead_ok_iff.mp h2
      cases hb
      exact .inl (.ret (State.checkPopRoom_ok_iff.mp h1) h3)
    · refine .inr ⟨k, ?_, ht⟩
      rcases Except.bind_error_iff.mp hb with hb | ⟨u, h1, hb⟩
      · simp [handlerFaults, State.checkPopRoom_error hb]
      · rcases Except.bind_error_iff.mp hb with hb | ⟨v, h2, hb⟩
        · simp [handlerFaults, State.memRead_error hb]
        · cases hb
  | push r =>
    rcases withReg_next_cases h with ⟨r, rfl, hb⟩ | ⟨k, hk | ⟨r, hb⟩, ht⟩
    · obtain ⟨u, h1, hb⟩ := Except.bind_ok_iff.mp hb
      obtain ⟨t', h2, hb⟩ := Except.bind_ok_iff.mp hb
      obtain ⟨h3, rfl⟩ := State.push_ok_iff.mp h2
      cases hb
      exact .inl (.push rfl (State.checkPushRoom_ok_iff.mp h1) h3)
    · exact .inr ⟨k, by simp [handlerFaults, hk], ht⟩
    · refine .inr ⟨k, ?_, ht⟩
      rcases Except.bind_error_iff.mp hb with hb | ⟨u, h1, hb⟩
      · simp [handlerFaults, State.checkPushRoom_error hb]
      · rcases Except.bind_error_iff.mp hb with hb | ⟨v, h2, hb⟩
        · simp [handlerFaults, State.memWrite_error hb]
        · cases hb
  | pop r =>
    rcases withReg_next_cases h with ⟨r, rfl, hb⟩ | ⟨k, hk | ⟨r, hb⟩, ht⟩
    · obtain ⟨u, h1, hb⟩ := Except.bind_ok_iff.mp hb
      obtain ⟨v, h2, hb⟩ := Except.bind_ok_iff.mp hb
      obtain ⟨h3, rfl⟩ := State.memRead_ok_iff.mp h2
      cases hb
      exact .inl (.pop rfl (State.checkPopRoom_ok_iff.mp h1) h3)
    · exact .inr ⟨k, by simp [handlerFaults, hk], ht⟩
    · refine .inr ⟨k, ?_, ht⟩
      rcases Except.bind_error_iff.mp hb with hb | ⟨u, h1, hb⟩
      · simp [handlerFaults, State.checkPopRoom_error hb]
      · rcases Except.bind_error_iff.mp hb with hb | ⟨v, h2, hb⟩
        · simp [handlerFaults, State.memRead_error hb]
        · cases hb
  | call r =>
    rcases withReg_next_cases h with ⟨r, rfl, hb⟩ | ⟨k, hk | ⟨r, hb⟩, ht⟩
    · obtain ⟨u, h1, hb⟩ := Except.bind_ok_iff.mp hb
      obtain ⟨u', h2, hb⟩ := Except.bind_ok_iff.mp hb
      obtain ⟨t', h3, hb⟩ := Except.bind_ok_iff.mp hb
      obtain ⟨h4, rfl⟩ := State.push_ok_iff.mp h3
      cases hb
      exact .inl (.call rfl (State.checkPushRoom_ok_iff.mp h1) (State.checkAddress_ok_iff.mp h2) h4)
    · exact .inr ⟨k, by simp [handlerFaults, hk], ht⟩
    · refine .inr ⟨k, ?_, ht⟩
      rcases Except.bind_error_iff.mp hb with hb | ⟨u, h1, hb⟩
      · simp [handlerFaults, State.checkPushRoom_error hb]
      · rcases Except.bind_error_iff.mp hb with hb | ⟨v, h2, hb⟩
        · simp [handlerFaults, State.checkAddress_error hb]
        · rcases Except.bind_error_iff.mp hb with hb | ⟨w, h3, hb⟩
          · simp [handlerFaults, State.memWrite_error hb]
          · cases hb
  | prn r => exact (withReg_ok_cases h).imp_left fun ⟨_, hr, ht⟩ => ht ▸ .prn hr
  | jmp r => exact (withReg_ok_cases h).imp_left fun ⟨_, hr, ht⟩ => ht ▸ .jmp hr
  | jeq r => exact (withReg_ok_cases h).imp_left fun ⟨_, hr, ht⟩ => ht ▸ .jeq hr
  | jne r => exact (withReg_ok_cases h).imp_left fun ⟨_, hr, ht⟩ => ht ▸ .jne hr
  | ldi r v => exact (withReg_ok_cases h).imp_left fun ⟨_, hr, ht⟩ => ht ▸ .ldi hr v
  | add ra rb =>
    rcases aluStep_next_cases (op := .add) h with ⟨a, b, res, ha, hb, hc, rfl⟩ | ⟨k, hk | ⟨_, _, hk⟩, ht⟩
    · cases hc
      exact .inl (.add ha hb)
    · exact .inr ⟨k, by simp [handlerFaults, hk], ht⟩
    · cases hk
  | mul ra rb =>
    rcases aluStep_next_cases (op := .mul) h with ⟨a, b, res, ha, hb, hc, rfl⟩ | ⟨k, hk | ⟨_, _, hk⟩, ht⟩
    · cases hc
      exact .inl (.mul ha hb)
    · exact .inr ⟨k, by simp [handlerFaults, hk], ht⟩
    · cases hk
  | cmp ra rb =>
    rcases aluStep_next_cases (op := .cmp) h with ⟨a, b, res, ha, hb, hc, rfl⟩ | ⟨k, hk | ⟨_, _, hk⟩, ht⟩
    · cases hc
      exact .inl (.cmp ha hb)
    · exact .inr ⟨k, by simp [handlerFaults, hk], ht⟩
    · cases hk

/-- An instruction whose rule's conditions hold completes with its rule's writes. -/
theorem exec_of_completed {i : Instr} {s t : State} (h : Completed s i t) : exec i s = .next t := by
  cases h with
  | hlt => rfl
  | ret room cell =>
    simp only [exec, execRet, (State.checkPopRoom_ok_iff (u := ())).mpr room, State.memRead_ok_iff.mpr ⟨cell, rfl⟩]
    rfl
  | push operand room cell =>
    subst operand
    simp only [exec, execPush, withReg_regOperand, (State.checkPushRoom_ok_iff (u := ())).mpr room,
      State.push_ok_iff.mpr ⟨cell, rfl⟩]
    rfl
  | pop operand room cell =>
    subst operand
    simp only [exec, execPop, withReg_regOperand, (State.checkPopRoom_ok_iff (u := ())).mpr room,
      State.memRead_ok_iff.mpr ⟨cell, rfl⟩]
    rfl
  | call operand room ret cell =>
    subst operand
    simp only [exec, execCall, withReg_regOperand, (State.checkPushRoom_ok_iff (u := ())).mpr room,
      (State.checkAddress_ok_iff (u := ())).mpr ret, State.push_ok_iff.mpr ⟨cell, rfl⟩]
    rfl
  | prn operand =>
    subst operand
    simp only [exec, execPrn, withReg_regOperand, State.conclude_ok]
  | jmp operand =>
    subst operand
    simp only [exec, execJmp, withReg_regOperand, State.conclude_ok]
  | jeq operand =>
    subst operand
    simp only [exec, execJeq, withReg_regOperand, State.conclude_ok]
  | jne operand =>
    subst operand
    simp only [exec, execJne, withReg_regOperand, State.conclude_ok]
  | ldi operand v =>
    subst operand
    simp only [exec, execLdi, withReg_regOperand, State.conclude_ok]
  | add first second =>
    subst first second
    simp only [exec, execAdd, aluStep, withTwoRegs_regOperand]
    rfl
  | mul first second =>
    subst first second
    simp only [exec, execMul, aluStep, withTwoRegs_regOperand]
    rfl
  | cmp first second =>
    subst first second
    simp only [exec, execCmp, aluStep, withTwoRegs_regOperand]
    rfl

/-- No ALU instruction, and no operation kind the ALU lacks, ends in anything but a next state. -/
theorem aluStep_eq_conclude (op : AluOp) (ra rb : Byte) (s : State) : ∃ e, aluStep op ra rb s = s.conclude e :=
  ⟨_, by rw [aluStep, withTwoRegs_eq_conclude]⟩

end Sys2Proof.Machine
end

