-- ==== Sys2Proof/Laws/PerInstr.lean ====
section
/-! SUPPORT. The family `OperandBytes`: for each instruction, its operands are as many bytes as its handler's operand
count (R47, R48), and it is at most three bytes long. -/

namespace Sys2Proof.Laws.OperandBytes

/-- The operand bytes are those the opcode table counts, and the instruction is one byte longer (R47). -/
def Statement (i : Instr) : Prop :=
  i.operands.length = i.handler.operandCount ∧ (encode i).length = 1 + i.handler.operandCount ∧ (encode i).length ≤ 3

theorem hlt : Statement .hlt := ⟨rfl, rfl, by simp [encode, Instr.operands]⟩
theorem ret : Statement .ret := ⟨rfl, rfl, by simp [encode, Instr.operands]⟩
theorem push (r : Byte) : Statement (.push r) := ⟨rfl, rfl, by simp [encode, Instr.operands]⟩
theorem pop (r : Byte) : Statement (.pop r) := ⟨rfl, rfl, by simp [encode, Instr.operands]⟩
theorem prn (r : Byte) : Statement (.prn r) := ⟨rfl, rfl, by simp [encode, Instr.operands]⟩
theorem call (r : Byte) : Statement (.call r) := ⟨rfl, rfl, by simp [encode, Instr.operands]⟩
theorem jmp (r : Byte) : Statement (.jmp r) := ⟨rfl, rfl, by simp [encode, Instr.operands]⟩
theorem jeq (r : Byte) : Statement (.jeq r) := ⟨rfl, rfl, by simp [encode, Instr.operands]⟩
theorem jne (r : Byte) : Statement (.jne r) := ⟨rfl, rfl, by simp [encode, Instr.operands]⟩
theorem ldi (r v : Byte) : Statement (.ldi r v) := ⟨rfl, rfl, by simp [encode, Instr.operands]⟩
theorem add (ra rb : Byte) : Statement (.add ra rb) := ⟨rfl, rfl, by simp [encode, Instr.operands]⟩
theorem mul (ra rb : Byte) : Statement (.mul ra rb) := ⟨rfl, rfl, by simp [encode, Instr.operands]⟩
theorem cmp (ra rb : Byte) : Statement (.cmp ra rb) := ⟨rfl, rfl, by simp [encode, Instr.operands]⟩

end Sys2Proof.Laws.OperandBytes
end

