-- ==== Sys2Proof/Laws/Ports.lean ====
section
/-! SUPPORT. The laws of the ports: what `construct` leaves, and what `image`, `budget` and `run` do in each run state. -/

namespace Sys2Proof.Machine

variable (c : Config)

@[simp] theorem State.construct_cfg : (State.construct c).cfg = c := rfl
@[simp] theorem State.construct_regs : (State.construct c).regs = #v[0, 0, 0, 0, 0, 0, 0, c.stackTop] := rfl
@[simp] theorem State.construct_pc : (State.construct c).pc = 0 := rfl
@[simp] theorem State.construct_flags : (State.construct c).flags = ⟨false, false, false⟩ := rfl
@[simp] theorem State.construct_mem : (State.construct c).mem = [] := rfl
@[simp] theorem State.construct_runState : (State.construct c).runState = .loading := rfl
@[simp] theorem State.construct_faultRecord : (State.construct c).faultRecord = none := rfl
@[simp] theorem State.construct_steps : (State.construct c).steps = 0 := rfl
@[simp] theorem State.construct_output : (State.construct c).output = [] := rfl

/-- The loader holds the memory port exactly in `loading` (R39). -/
theorem RunState.memoryOwner_loader_iff (r : RunState) : r.memoryOwner = some .loader ↔ r = .loading := by
  cases r <;> decide

/-- An image that fits, in `loading` (R113). -/
theorem State.loadImage_fits {s : State} {bytes : List Byte} (hl : s.runState = .loading)
    (h : bytes.length ≤ s.cfg.memSize) : s.loadImage bytes = { s with mem := s.mem.writeAll 0 bytes } := by
  rw [State.loadImage, if_pos ((RunState.memoryOwner_loader_iff _).mpr hl), if_pos h]

/-- An image that does not fit, in `loading` (R114). -/
theorem State.loadImage_too_large {s : State} {bytes : List Byte} (hl : s.runState = .loading)
    (h : s.cfg.memSize < bytes.length) :
    s.loadImage bytes = s.latchFault { kind := .programTooLarge, pc := 0, opcode := none } := by
  rw [State.loadImage, if_pos ((RunState.memoryOwner_loader_iff _).mpr hl), if_neg (by omega)]

/-- Outside `loading` the image port does nothing. -/
theorem State.loadImage_not_loading {s : State} {bytes : List Byte} (hl : s.runState ≠ .loading) :
    s.loadImage bytes = s := by
  rw [State.loadImage, if_neg (mt (RunState.memoryOwner_loader_iff _).mp hl)]

end Sys2Proof.Machine
end

