-- ==== Sys2Proof/Laws/Step.lean ====
section
/-! SUPPORT. What `step` can do, said once, and the laws of the fetch. -/

namespace Sys2Proof.Machine

/-- The budget check reads as R61 writes it. -/
theorem State.budgetExceeded_eq_false_iff {s : State} :
    s.budgetExceeded = false ↔ ∀ b, s.cfg.budget = some b → s.steps < b := by
  unfold State.budgetExceeded
  cases s.cfg.budget <;> simp

theorem State.budgetExceeded_eq_true_iff {s : State} :
    s.budgetExceeded = true ↔ ∃ b, s.cfg.budget = some b ∧ b ≤ s.steps := by
  unfold State.budgetExceeded
  cases s.cfg.budget <;> simp

@[simp] theorem countStep_next (t : State) : countStep (.next t) = .next t.countCompleted := rfl

theorem State.countCompleted_of_ne {t : State} (h : t.runState ≠ .faulted) :
    t.countCompleted = { t with steps := t.steps + 1 } := by
  simp [State.countCompleted, h]

theorem State.countCompleted_of_faulted {t : State} (h : t.runState = .faulted) : t.countCompleted = t := by
  simp [State.countCompleted, h]

@[simp] theorem State.countCompleted_takeFault (s : State) (k : FaultKind) :
    (s.takeFault k).countCompleted = s.takeFault k := State.countCompleted_of_faulted rfl

/-- The completions of an instruction that runs leave a run state that is not `faulted`. -/
theorem Completed.runState_ne_faulted {s t : State} {i : Instr} (h : Completed s i t) (hr : s.runState = .running) :
    t.runState ≠ .faulted := by
  cases h <;> simp [State.decSp, State.incSp, hr]

/-- The faults a step can raise after its budget check (R70). -/
def stepFaults : List FaultKind :=
  [.memoryAddressOutOfRange, .unrecognizedOpcode, .registerIndexOutOfRange, .unsupportedAluOperation, .stackOverflow,
    .stackUnderflow]

theorem handlerFaults_subset {k : FaultKind} (h : k ∈ handlerFaults) : k ∈ stepFaults := by
  revert h
  cases k <;> decide

/-- A rejection of the decoder is a fault of the step (R62 to R65, R74). -/
theorem State.rejectDecode_next (s : State) (e : DecodeError) :
    ∃ k ∈ stepFaults, s.rejectDecode e = .next (s.takeFault k) := by
  cases e with
  | noOpcode => exact ⟨_, by decide, rfl⟩
  | unrecognizedOpcode o => exact ⟨_, by decide, rfl⟩
  | missingOperand o => exact ⟨_, by decide, rfl⟩
  | unsupportedAlu kind a b =>
    obtain ⟨e, he⟩ := aluStep_eq_conclude (.other kind) a b s
    have hn : ∃ t, aluStep (.other kind) a b s = .next t := by
      cases e with
      | ok t => exact ⟨t, he⟩
      | error k => exact ⟨_, he⟩
    obtain ⟨t, ht⟩ := hn
    rcases aluStep_next_cases ht with ⟨_, _, _, _, _, hc, _⟩ | ⟨k, hk | ⟨_, _, hk⟩, rfl⟩
    · cases hc
    · exact ⟨k, by subst hk; decide, ht⟩
    · cases hk
      exact ⟨_, by decide, ht⟩

/-- What a step can do (R60): it happens only in `running`, and it is the budget's fault, a fault of the instruction at
`pc`, or one completed instruction, counted. -/
theorem step_next_cases {s t : State} (h : step s = .next t) :
    s.runState = .running ∧
      (s.budgetExceeded = true ∧ t = s.takeBudgetFault ∨
        s.budgetExceeded = false ∧ (∃ k ∈ stepFaults, t = s.takeFault k) ∨
        s.budgetExceeded = false ∧
          ∃ i u, s.fetch = .ok i ∧ Completed s i u ∧ t = { u with steps := u.steps + 1 }) := by
  unfold step at h
  split at h
  · cases h
  · cases h
  · cases h
  · rename_i hr
    refine ⟨hr, ?_⟩
    split at h
    · rename_i hb
      cases h
      exact .inl ⟨hb, rfl⟩
    · rename_i hb
      have hb : s.budgetExceeded = false := by simpa using hb
      split at h
      · rename_i i hf
        obtain ⟨u, hu⟩ := exec_answers i s
        rw [hu, countStep_next] at h
        cases h
        rcases exec_next_cases hu with hc | ⟨k, hk, rfl⟩
        · exact .inr (.inr ⟨hb, i, u, hf, hc, State.countCompleted_of_ne (hc.runState_ne_faulted hr)⟩)
        · exact .inr (.inl ⟨hb, k, handlerFaults_subset hk, State.countCompleted_takeFault s k⟩)
      · rename_i e hf
        obtain ⟨k, hmem, hk⟩ := State.rejectDecode_next s e
        rw [hk] at h
        cases h
        exact .inr (.inl ⟨hb, k, hmem, rfl⟩)

/-! ### The bytes at the pc -/

@[simp] theorem State.bytesFrom_zero (s : State) (a : Nat) : s.bytesFrom a 0 = [] := rfl

theorem State.bytesFrom_succ {s : State} {a : Nat} (h : a < s.cfg.memSize) (k : Nat) :
    s.bytesFrom a (k + 1) = s.readCell a :: s.bytesFrom (a + 1) k := by
  rw [State.bytesFrom, if_pos h]
  rfl

theorem State.bytesFrom_out {s : State} {a : Nat} (h : ¬ a < s.cfg.memSize) (k : Nat) : s.bytesFrom a k = [] := by
  cases k with
  | zero => rfl
  | succ k => rw [State.bytesFrom, if_neg h]

/-- Bytes stored from `a` upward are the first of the bytes read from `a`. -/
theorem State.bytesFrom_of_stored {s : State} (bytes : List Byte) {a : Nat}
    (h : ∀ k b, bytes[k]? = some b → a + k < s.cfg.memSize ∧ s.readCell (a + k) = b) (n : Nat) :
    s.bytesFrom a (bytes.length + n) = bytes ++ s.bytesFrom (a + bytes.length) n := by
  induction bytes generalizing a with
  | nil => simp
  | cons b bytes ih =>
    obtain ⟨hlt, hb⟩ := h 0 b rfl
    rw [Nat.add_zero] at hlt hb
    have hrest : ∀ k c, bytes[k]? = some c → a + 1 + k < s.cfg.memSize ∧ s.readCell (a + 1 + k) = c := by
      intro k c hc
      have := h (k + 1) c (by simpa using hc)
      rwa [show a + (k + 1) = a + 1 + k by omega] at this
    rw [List.length_cons, show bytes.length + 1 + n = (bytes.length + n) + 1 by omega,
      State.bytesFrom_succ hlt, ih hrest]
    rw [hb, show a + (bytes.length + 1) = a + 1 + bytes.length by omega, List.cons_append]

theorem State.length_bytesFrom_le (s : State) (a k : Nat) (h : a ≤ s.cfg.memSize) :
    a + (s.bytesFrom a k).length ≤ s.cfg.memSize := by
  induction k generalizing a with
  | zero => simpa
  | succ k ih =>
    by_cases ha : a < s.cfg.memSize
    · have := ih (a + 1) ha
      rw [State.bytesFrom_succ ha, List.length_cons]
      omega
    · simpa [State.bytesFrom_out ha]

/-- A fetched instruction lies in memory with all its bytes (R62, R64). -/
theorem State.fetch_in_memory {s : State} {i : Instr} (h : s.fetch = .ok i) :
    s.pc.toNat + (encode i).length ≤ s.cfg.memSize := by
  unfold State.fetch State.codeBytes at h
  by_cases ha : s.pc.toNat < s.cfg.memSize
  · have hlen := s.length_bytesFrom_le (s.pc.toNat + 1) 2 ha
    rw [State.bytesFrom_succ ha] at h
    unfold decode at h
    split at h
    · cases h
    · rename_i heq
      cases heq
      split at h
      · cases h
      · rename_i hd _
        generalize hdec : decodeOperands _ hd _ = d at h
        cases d with
        | error e => cases h
        | ok p =>
          obtain ⟨j, rest⟩ := p
          cases h
          rw [(decodeOperands_ok hdec).1, List.length_append] at hlen
          show s.pc.toNat + (j.operands.length + 1) ≤ s.cfg.memSize
          omega
  · rw [State.bytesFrom_out ha] at h
    cases h

/-- States whose cells from `a` upward agree have the same bytes there. -/
theorem State.bytesFrom_congr {s t : State} {a : Nat} (hn : t.cfg.memSize = s.cfg.memSize)
    (h : ∀ b, a ≤ b → t.readCell b = s.readCell b) (k : Nat) : t.bytesFrom a k = s.bytesFrom a k := by
  induction k generalizing a with
  | zero => rfl
  | succ k ih =>
    by_cases ha : a < s.cfg.memSize
    · rw [State.bytesFrom_succ ha, State.bytesFrom_succ (hn ▸ ha), h a (Nat.le_refl a),
        ih fun b hb => h b (by omega)]
    · rw [State.bytesFrom_out ha, State.bytesFrom_out (hn ▸ ha)]

/-- A step that fetches an instruction runs it and counts it unless it faulted (R60, R69). -/
theorem step_of_fetch_ok {s : State} {i : Instr} (hr : s.runState = .running) (hb : s.budgetExceeded = false)
    (hf : s.fetch = .ok i) :
    ∃ u, exec i s = .next u ∧
      step s = .next (if u.runState = .faulted then u else { u with steps := u.steps + 1 }) := by
  obtain ⟨u, hu⟩ := exec_answers i s
  refine ⟨u, hu, ?_⟩
  simp only [step, hr, hb, hf, hu, countStep_next, State.countCompleted]
  rfl

/-- A step that fetches no instruction takes the decoder's rejection as its fault (R62 to R64). -/
theorem step_of_fetch_error {s : State} {e : DecodeError} (hr : s.runState = .running) (hb : s.budgetExceeded = false)
    (hf : s.fetch = .error e) : step s = s.rejectDecode e := by
  simp only [step, hr, hb, hf]
  rfl

/-! ### Runs -/

/-- One step of a run of the host's machine. -/
theorem core_run_succ {s t : State} (h : step s = .next t) (k : Nat) :
    Host.Core.run Sys2Proof.core (k + 1) s = Host.Core.run Sys2Proof.core k t := by
  have h' : Sys2Proof.core.step s = .next t := h
  simp only [Host.Core.run, h']

end Sys2Proof.Machine
end

