-- ==== Sys2Proof/Tests/Slice0.lean ====
section
/-! SUPPORT. The tests and the witnesses. Words are written out from the encodings of spec/30_encoding.md, expected results
are the vectors of spec/95_test_vectors.md, cited by their ids. A witness shows a state and operands that meet the
hypotheses of a statement together. -/

namespace Sys2Proof.Tests

open Sys2Proof.Machine

/-! ### Helpers -/

/-- The machine after `construct`, `image` and `run`, under a configuration. -/
def bootWith (c : Config) (image : List Byte) : State := ((State.construct c).port (.image image)).port .run

/-- The same under the configuration of this hardware. -/
def boot (image : List Byte) : State := bootWith Config.default image

/-- The machine running, with code at an address and the pc there. -/
def codeAt (pc : PcWord) (code : List Byte) : State := { boot [] with pc := pc }.placeCode code

/-- The next state, or the given one where there is none. -/
def nextOr (s : State) : Host.Outcome State Fault Refusal → State
  | .next t => t
  | _ => s

/-- The state one step later. -/
def after (s : State) : State := nextOr s (step s)

/-- A configuration of sixteen cells, the stack below cell 8. -/
def smallConfig : Config := { Config.default with memSize := 16, stackTop := 8 }

/-- An opcode map with a kind that the ALU does not have at 0xA3, and no `HLT`. -/
def otherMap : OpcodeMap := [(0xA3, .alu (.other 3)), (0x10, .push), (0xA0, .alu .add)]

/-! ### Well-formedness: one ill-formed term for each register check (R50), and an unchecked immediate (R65) -/

theorem test_wellFormed_push : WellFormed (.push 8) = false ∧ WellFormed (.push 7) = true := by decide
theorem test_wellFormed_pop : WellFormed (.pop 8) = false := by decide
theorem test_wellFormed_prn : WellFormed (.prn 9) = false := by decide
theorem test_wellFormed_call : WellFormed (.call 0x10) = false := by decide
theorem test_wellFormed_jmp : WellFormed (.jmp 0x80) = false := by decide
theorem test_wellFormed_jeq : WellFormed (.jeq 0x09) = false := by decide
theorem test_wellFormed_jne : WellFormed (.jne 0xFF) = false := by decide
theorem test_wellFormed_ldi : WellFormed (.ldi 8 5) = false ∧ WellFormed (.ldi 7 0xFF) = true := by decide
theorem test_wellFormed_add : WellFormed (.add 8 0) = false ∧ WellFormed (.add 0 8) = false := by decide
theorem test_wellFormed_mul : WellFormed (.mul 8 0) = false ∧ WellFormed (.mul 0 8) = false := by decide
theorem test_wellFormed_cmp : WellFormed (.cmp 8 0) = false ∧ WellFormed (.cmp 0 8) = false := by decide

/-! ### Decoding: words written from R48 and R52, numbered as the opcode table numbers them (later bytes higher) -/

theorem test_decode_hlt : decodeTableWord 8 0b00000001 = some .hlt := by decide
theorem test_decode_ret : decodeTableWord 8 0b00010001 = some .ret := by decide
theorem test_decode_push : decodeTableWord 16 0b00000010_01000101 = some (.push 2) := by decide
theorem test_decode_pop : decodeTableWord 16 0b00000001_01000110 = some (.pop 1) := by decide
theorem test_decode_prn : decodeTableWord 16 0b00000111_01000111 = some (.prn 7) := by decide
theorem test_decode_call : decodeTableWord 16 0b00000001_01010000 = some (.call 1) := by decide
theorem test_decode_jmp : decodeTableWord 16 0b00000011_01010100 = some (.jmp 3) := by decide
theorem test_decode_jeq : decodeTableWord 16 0b00000100_01010101 = some (.jeq 4) := by decide
theorem test_decode_jne : decodeTableWord 16 0b00000011_01010110 = some (.jne 3) := by decide
theorem test_decode_ldi : decodeTableWord 24 0b11000011_00000101_10000010 = some (.ldi 5 0xC3) := by decide
theorem test_decode_add : decodeTableWord 24 0b00000001_00000110_10100000 = some (.add 6 1) := by decide
theorem test_decode_mul : decodeTableWord 24 0b00000001_00000000_10100010 = some (.mul 0 1) := by decide
theorem test_decode_cmp : decodeTableWord 24 0b00000011_00000010_10100111 = some (.cmp 2 3) := by decide

/-- The other instructions of the family are illegal here (R5, R55): `NOP` 0x00, `LD` 0x83, `ST` 0x84, `AND` 0xA8. -/
theorem test_decode_family_is_illegal :
    [0x00, 0x83, 0x84, 0xA8].map (fun b => decode defaultOpcodeMap [b, 0, 0]) =
      [0x00, 0x83, 0x84, 0xA8].map fun b => .error (.unrecognizedOpcode b) := by rfl

/-- An operand byte of 8 or more still decodes; it faults when the instruction executes (R60). -/
theorem test_decode_keeps_operand_bytes : decodeTableWord 16 0x0947 = some (.prn 9) := by decide

theorem test_withFetchWord_runs :
    (after (State.reset.withFetchWord 24 0xC30582)).readReg 5 = 0xC3 ∧
      (after (State.reset.withFetchWord 8 0x01)).runState = .halted := by decide

/-! ### One step of each instruction -/

/-- A-3 and A-8: the sum wraps, and SP is written like any register. -/
theorem test_add_wraps :
    (after (((boot [0xA0, 0x00, 0x01]).writeReg 0 0xFF).writeReg 1 0x01)).readReg 0 = 0x00 ∧
      (after ((boot [0xA0, 0x07, 0x01]).writeReg 1 0x0C)).sp = 0x00 := by decide

/-- A-7: `ADD` leaves the flags. -/
theorem test_add_keeps_flags :
    (after ((boot [0xA0, 0x00, 0x01]).writeFlags ⟨true, false, false⟩)).flags = ⟨true, false, false⟩ := by decide

/-- M-2: 0x10 times 0x11 is 272, of which 0x10 stays. -/
theorem test_mul_wraps :
    (after (((boot [0xA2, 0x00, 0x01]).writeReg 0 0x10).writeReg 1 0x11)).readReg 0 = 0x10 := by decide

/-- K-4: the comparison is unsigned. -/
theorem test_cmp_is_unsigned :
    (after (((boot [0xA7, 0x00, 0x01]).writeReg 0 0x01).writeReg 1 0xFF)).flags = ⟨false, true, false⟩ := by decide

/-- K-8: all three flags are rewritten. -/
theorem test_cmp_rewrites_flags :
    (after ((((boot [0xA7, 0x00, 0x01]).writeReg 0 3).writeReg 1 4).writeFlags ⟨true, false, false⟩)).flags =
      ⟨false, true, false⟩ := by decide

/-- P-4: `PUSH R7` stores the decremented SP. -/
theorem test_push_sp : (after (boot [0x45, 0x07])).sp = 0xF3 ∧ (after (boot [0x45, 0x07])).mem.read 0xF3 = 0xF3 := by
  decide

/-- P-2: a push at SP = 0 overflows. -/
theorem test_push_overflow :
    (after ((boot [0x45, 0x00]).writeReg 7 0)).faultRecord = some ⟨.stackOverflow, 0, some 0x45⟩ := by decide

/-- O-4: `POP R7` leaves the popped byte plus one. -/
theorem test_pop_sp : (after (((boot [0x46, 0x07]).setCell 0xF3 0x10).writeReg 7 0xF3)).sp = 0x11 := by decide

/-- O-3: a pop above the top underflows. -/
theorem test_pop_underflow :
    (after ((boot [0x46, 0x01]).writeReg 7 0xFF)).faultRecord = some ⟨.stackUnderflow, 0, some 0x46⟩ := by decide

/-- L-1: a call pushes the address behind it. -/
theorem test_call :
    (after ((codeAt 0x09 [0x50, 0x01]).writeReg 1 0x0E)).pc = 0x0E ∧
      (after ((codeAt 0x09 [0x50, 0x01]).writeReg 1 0x0E)).mem.read 0xF3 = 0x0B := by decide

/-- L-3 and L-5: a return address of 0x100 faults, after the bound of the stack. -/
theorem test_call_at_the_top :
    (after (codeAt 0xFE [0x50, 0x01])).faultRecord = some ⟨.memoryAddressOutOfRange, 0xFE, some 0x50⟩ ∧
      (after ((codeAt 0xFE [0x50, 0x01]).writeReg 7 0)).faultRecord = some ⟨.stackOverflow, 0xFE, some 0x50⟩ := by decide

/-- T-1: a return pops the pc. -/
theorem test_ret :
    (after (((boot [0x11]).setCell 0xF3 0x0B).writeReg 7 0xF3)).pc = 0x0B ∧
      (after (((boot [0x11]).setCell 0xF3 0x0B).writeReg 7 0xF3)).sp = 0xF4 := by decide

/-- C-1. -/
theorem test_jmp : (after ((codeAt 0x03 [0x54, 0x00]).writeReg 0 0x10)).pc = 0x10 := by decide

/-- C-3 and C-4. -/
theorem test_jeq :
    (after (((codeAt 0x17 [0x55, 0x04]).writeReg 4 0x1A).writeFlags ⟨true, false, false⟩)).pc = 0x1A ∧
      (after ((codeAt 0x17 [0x55, 0x04]).writeReg 4 0x1A)).pc = 0x19 := by decide

/-- D-9: the operand of a jump that is not taken is checked. -/
theorem test_jeq_checks_its_operand :
    (after (boot [0x55, 0x09])).faultRecord = some ⟨.registerIndexOutOfRange, 0, some 0x55⟩ := by decide

/-- C-5 and C-6. -/
theorem test_jne :
    (after ((codeAt 0x16 [0x56, 0x03]).writeReg 3 0x0C)).pc = 0x0C ∧
      (after (((codeAt 0x16 [0x56, 0x03]).writeReg 3 0x0C).writeFlags ⟨true, false, false⟩)).pc = 0x18 := by decide

/-- I-4: an opcode value as immediate. -/
theorem test_ldi : (after (boot [0x82, 0x02, 0xA7])).readReg 2 = 0xA7 ∧ (after (boot [0x82, 0x02, 0xA7])).pc = 3 := by
  decide

/-- D-4 and D-7: a missing operand byte, a bad register operand. -/
theorem test_ldi_faults :
    (after (codeAt 0xFF [0x82])).faultRecord = some ⟨.memoryAddressOutOfRange, 0xFF, some 0x82⟩ ∧
      (after (boot [0x82, 0x08, 0x05])).faultRecord = some ⟨.registerIndexOutOfRange, 0, some 0x82⟩ := by decide

/-- D-6: a print in the last two cells leaves the pc at 0x100, where nothing can be fetched. -/
theorem test_prn :
    (after ((codeAt 0xFE [0x47, 0x00]).writeReg 0 7)).output = [7] ∧
      (after (after ((codeAt 0xFE [0x47, 0x00]).writeReg 0 7))).faultRecord =
        some ⟨.memoryAddressOutOfRange, 0x100, none⟩ := by decide

/-- H-1: a halt leaves the pc and counts. -/
theorem test_hlt :
    after { codeAt 0x05 [0x01] with steps := 2 } =
      { codeAt 0x05 [0x01] with steps := 3, runState := .halted } := by decide

/-! ### The step and the ports -/

/-- S7, D-1: illegal opcodes. -/
theorem test_illegal_opcodes :
    (after (boot [0xFF])).faultRecord = some ⟨.unrecognizedOpcode, 0, some 0xFF⟩ ∧
      (after (boot [])).faultRecord = some ⟨.unrecognizedOpcode, 0, some 0x00⟩ := by decide

/-- D-11 and D-12: the budget is checked before the decode, and lets its last instruction be a `HLT`. -/
theorem test_budget :
    (after (bootWith { Config.default with budget := some 0 } [0xFF])).faultRecord =
        some ⟨.stepBudgetExceeded, 0, none⟩ ∧
      (after (bootWith { Config.default with budget := some 1 } [0x01])).runState = .halted := by decide

/-- C-10: with 128 cells a jump above them faults at the next fetch. -/
theorem test_jump_out_of_memory :
    (after (after ((bootWith { Config.default with memSize := 128, stackTop := 0x60 } [0x54, 0x00]).writeReg 0 0x90))
      ).faultRecord = some ⟨.memoryAddressOutOfRange, 0x90, none⟩ := by decide

/-- G-1 and G-2, with sixteen cells: an image of exactly N bytes is legal, one byte more is not. -/
theorem test_image_sizes :
    ((State.construct smallConfig).port (.image (List.replicate 16 0x01))).runState = .loading ∧
      (State.construct smallConfig).port (.image (List.replicate 17 0x01)) =
        { State.construct smallConfig with runState := .faulted, faultRecord := some ⟨.programTooLarge, 0, none⟩ } := by
  decide

/-- R98, R27: what the status port shows after a fault. -/
theorem test_status :
    (after (boot [0x46, 0x00])).status =
      ⟨.faulted, some ⟨.stackUnderflow, 0, some 0x46⟩, some 5, 0, 0⟩ := by decide

/-! ### Witnesses -/

/-- The invariant holds of a machine that runs. -/
theorem inv_codeAt (code : List Byte) (h : (codeAt 0xFD code).mem.wf ∧ (codeAt 0xFD code).mem.within 256) :
    (codeAt 0xFD code).Inv :=
  ⟨(by decide : Config.default.wf), h.1, h.2, (by decide : (0xFD : PcWord).toNat ≤ 256), ⟨nofun, nofun⟩, nofun, nofun⟩

theorem witness_TwoHundredFortyThreeOpcodesAreIllegal :
    defaultOpcodeMap.lookup 0x02 = none ∧ defaultOpcodeMap.lookup 0xFF = none := by decide

theorem witness_DecodeOfEncodeIsTheInstruction :
    (otherMap.map Prod.fst).Nodup ∧ encodeWith otherMap (.push 0xFF) = some [0x10, 0xFF] := by decide

theorem witness_DecodedBytesAreTheEncoding :
    decode defaultOpcodeMap [0x82, 0xFF, 0x01, 0x11] = .ok (.ldi 0xFF 0x01, [0x11]) := by rfl

/-- Both sides of the missing operand: one byte too few, and exactly enough. -/
theorem witness_OpcodeAloneFixesTheLength :
    defaultOpcodeMap.lookup 0xA0 = some (.alu .add) ∧
      decode defaultOpcodeMap [0xA0, 0x00] = .error (.missingOperand 0xA0) ∧
      decode defaultOpcodeMap [0xA0, 0x00, 0x01] = .ok (.add 0x00 0x01, []) := ⟨by decide, rfl, rfl⟩

theorem witness_CellReadReturnsTheLatestWrite :
    (boot [0x01]).mem.wf ∧ 255 < (boot [0x01]).cfg.memSize ∧ 15 < smallConfig.memSize := by decide

/-- The last cell and the first address that is none. -/
theorem witness_AddressOutOfRangeFaults : ¬ (boot []).cfg.memSize ≤ 255 ∧ (boot []).cfg.memSize ≤ 256 := by decide

/-- A push into cell 0, and one into the last cell of sixteen. -/
theorem witness_PushStoresBelowSp :
    ((boot [0x45]).writeReg 7 1).mem.wf ∧ ((boot [0x45]).writeReg 7 1).sp ≠ 0 ∧
      ((boot [0x45]).writeReg 7 1).sp.toNat - 1 < ((boot [0x45]).writeReg 7 1).cfg.memSize ∧
      ((bootWith smallConfig []).writeReg 7 16).mem.wf ∧ ((bootWith smallConfig []).writeReg 7 16).sp ≠ 0 ∧
      ((bootWith smallConfig []).writeReg 7 16).sp.toNat - 1 < ((bootWith smallConfig []).writeReg 7 16).cfg.memSize := by
  decide

/-- A pop just below the top, and one at address 0. -/
theorem witness_PopLoadsFromSp :
    ((boot []).writeReg 7 0xF3).cfg.wf ∧
      ((boot []).writeReg 7 0xF3).sp.toNat < ((boot []).writeReg 7 0xF3).cfg.stackTop.toNat ∧
      ((boot []).writeReg 7 0).sp.toNat < ((boot []).writeReg 7 0).cfg.stackTop.toNat := by decide

/-- The highest call that has a return address. -/
theorem witness_CallPushesTheReturnAddress :
    (codeAt 0xFD [0x50]).cfg.wf ∧ (codeAt 0xFD [0x50]).mem.wf ∧ (codeAt 0xFD [0x50]).sp ≠ 0 ∧
      (codeAt 0xFD [0x50]).pc.toNat + 2 < (codeAt 0xFD [0x50]).cfg.memSize ∧
      (codeAt 0xFD [0x50]).sp.toNat - 1 < (codeAt 0xFD [0x50]).cfg.memSize := by decide

theorem witness_RetPopsThePc :
    ((boot []).writeReg 7 0xF3).cfg.wf ∧
      ((boot []).writeReg 7 0xF3).sp.toNat < ((boot []).writeReg 7 0xF3).cfg.stackTop.toNat := by decide

theorem witness_StackBoundsFault_overflow : ((boot []).writeReg 7 0).sp = 0 := by decide

/-- The empty stack: SP exactly at the top. -/
theorem witness_StackBoundsFault_underflow : (boot []).cfg.stackTop.toNat ≤ (boot []).sp.toNat := by decide

theorem witness_StoreOutsideMemoryFaults_return :
    (codeAt 0xFE [0x50]).sp ≠ 0 ∧ (codeAt 0xFE [0x50]).cfg.memSize ≤ (codeAt 0xFE [0x50]).pc.toNat + 2 := by decide

theorem witness_StoreOutsideMemoryFaults_cell :
    ((bootWith smallConfig []).writeReg 7 17).sp ≠ 0 ∧
      ((bootWith smallConfig []).writeReg 7 17).cfg.memSize ≤ ((bootWith smallConfig []).writeReg 7 17).sp.toNat - 1 := by
  decide

theorem witness_StackFaultKindsAreThoseOfTheBounds_pop :
    (boot []).cfg.wf ∧ (boot []).runState = .running ∧
      (nextOr (boot []) (exec (.pop (regOperand 3)) (boot []))).runState = .faulted ∧
      exec (.pop (regOperand 3)) (boot []) = .next (nextOr (boot []) (exec (.pop (regOperand 3)) (boot []))) ∧
      exec .ret (boot []) = .next (nextOr (boot []) (exec .ret (boot []))) :=
  ⟨by decide, rfl, rfl, rfl, rfl⟩

theorem witness_StackFaultKindsAreThoseOfTheBounds_push :
    ((boot []).writeReg 7 0).cfg.memSize = 256 ∧
      (nextOr (boot []) (exec (.push (regOperand 3)) ((boot []).writeReg 7 0))).runState = .faulted ∧
      exec (.push (regOperand 3)) ((boot []).writeReg 7 0) =
        .next (nextOr (boot []) (exec (.push (regOperand 3)) ((boot []).writeReg 7 0))) := ⟨rfl, rfl, rfl⟩

/-- Both ends of the stack: SP at the top, and SP at 1. -/
theorem witness_PopUndoesPush :
    (boot []).cfg.wf ∧ (boot []).mem.wf ∧ (2 : RegIdx) ≠ spIndex ∧ (boot []).sp ≠ 0 ∧
      (boot []).sp.toNat ≤ (boot []).cfg.stackTop.toNat ∧ ((boot []).writeReg 7 1).sp ≠ 0 ∧
      ((boot []).writeReg 7 1).sp.toNat ≤ ((boot []).writeReg 7 1).cfg.stackTop.toNat := by decide

/-- The call of program P3, and the state in which its subroutine returns (E set, R0 = 1). -/
def called : State := after ((codeAt 0x09 [0x50, 0x01]).writeReg 1 0x0E)

theorem witness_RetReturnsBehindTheCall :
    (codeAt 0x09 [0x50, 0x01]).cfg.wf ∧ (codeAt 0x09 [0x50, 0x01]).mem.wf ∧
      exec (.call (regOperand 1)) ((codeAt 0x09 [0x50, 0x01]).writeReg 1 0x0E) = .next { called with steps := 0 } ∧
      called.runState = .running ∧
      ((called.writeReg 0 1).writeFlags ⟨true, false, false⟩).sp = called.sp ∧
      ((called.writeReg 0 1).writeFlags ⟨true, false, false⟩).readCell called.sp.toNat = called.readCell called.sp.toNat :=
  ⟨by decide, by decide, rfl, by decide, by decide, by decide⟩

theorem witness_BadRegisterOperandFaults : WellFormed (.jne 8) = false ∧ WellFormed (.add 7 255) = false := by decide

theorem witness_FlagsBelongToCmp :
    exec (.ldi 7 0) (boot []) = .next (nextOr (boot []) (exec (.ldi 7 0) (boot []))) ∧
      ∀ ra rb, (.ldi 7 0 : Instr) ≠ .cmp ra rb := ⟨rfl, nofun⟩

theorem witness_OnlyPushAndCallStore :
    (boot []).mem.wf ∧ (Instr.push 0).handler = .push ∧ (Instr.ret).handler ≠ .push ∧ (Instr.ret).handler ≠ .call ∧
      exec (.push 0) (boot []) = .next (nextOr (boot []) (exec (.push 0) (boot []))) ∧
      exec .ret (boot []) = .next (nextOr (boot []) (exec .ret (boot []))) :=
  ⟨by decide, rfl, by decide, by decide, rfl, rfl⟩

theorem witness_HandlersObeyTheirControlSignals :
    (boot []).mem.wf ∧ (boot []).runState = .running ∧
      exec (.call 0) (boot []) = .next (nextOr (boot []) (exec (.call 0) (boot []))) ∧
      (nextOr (boot []) (exec (.call 0) (boot []))).runState ≠ .faulted := ⟨by decide, rfl, rfl, by decide⟩

/-- Three bytes in the last three cells: the pc becomes 256. -/
theorem witness_AdvanceDoesNotWrap :
    (codeAt 0xFD []).cfg.wf ∧ (codeAt 0xFD []).runState = .running ∧
      (codeAt 0xFD []).pc.toNat + (encode (.ldi 0 0)).length ≤ (codeAt 0xFD []).cfg.memSize ∧
      exec (.ldi 0 0) (codeAt 0xFD []) = .next (nextOr (boot []) (exec (.ldi 0 0) (codeAt 0xFD []))) ∧
      (nextOr (boot []) (exec (.ldi 0 0) (codeAt 0xFD []))).runState ≠ .faulted ∧
      (Instr.ldi 0 0).handler.signals.pcSignal = .advance := ⟨by decide, rfl, by decide, rfl, by decide, rfl⟩

/-- A print in the last two cells, under a budget that has one instruction left. -/
theorem witness_StepRunsTheDecodedInstruction :
    let s : State := { codeAt 0xFE [0x47, 0x00] with cfg := { Config.default with budget := some 1 } }
    s.runState = .running ∧ s.cfg.budget = some 1 ∧ s.steps < 1 ∧ (s.cfg.opcodeMap.map Prod.fst).Nodup ∧
      encodeWith s.cfg.opcodeMap (.prn 0) = some [0x47, 0x00] ∧ s.pc.toNat + 1 < s.cfg.memSize ∧
      s.readCell (s.pc.toNat + 0) = 0x47 ∧ s.readCell (s.pc.toNat + 1) = 0x00 := by decide

theorem witness_StepIsThePseudocodeOfTheSpec : (boot [0xFF]).runState = .running := by decide

/-- An illegal byte in the last cell, and a legal one there whose operands are missing. -/
theorem witness_UnrecognizedOpcodeFaults :
    (codeAt 0xFF [0xFF]).runState = .running ∧ (codeAt 0xFF [0xFF]).cfg.budget = none ∧
      (codeAt 0xFF [0xFF]).pc.toNat < (codeAt 0xFF [0xFF]).cfg.memSize ∧
      (codeAt 0xFF [0xFF]).cfg.opcodeMap.lookup ((codeAt 0xFF [0xFF]).readCell 0xFF) = none ∧
      (codeAt 0xFF [0x82]).cfg.opcodeMap.lookup ((codeAt 0xFF [0x82]).readCell 0xFF) = some .ldi ∧
      step (codeAt 0xFF [0x82]) = .next (after (codeAt 0xFF [0x82])) ∧
      (after (codeAt 0xFF [0x82])).runState = .faulted ∧
      (after (codeAt 0xFF [0x82])).faultRecord = some ⟨.memoryAddressOutOfRange, 0xFF, some 0x82⟩ :=
  ⟨rfl, rfl, by decide, by decide, by decide, rfl, rfl, rfl⟩

/-- The budget used up exactly, and the pc at the first address that is none. -/
theorem witness_BudgetThenFetchAddressFault :
    let s : State := { boot [0x01] with cfg := { Config.default with budget := some 2 }, steps := 2 }
    s.runState = .running ∧ s.cfg.budget = some 2 ∧ 2 ≤ s.steps ∧
      (codeAt 0x100 []).runState = .running ∧ (codeAt 0x100 []).cfg.budget = none ∧
      (codeAt 0x100 []).cfg.memSize ≤ (codeAt 0x100 []).pc.toNat := by decide

theorem witness_UnsupportedAluKindFaults_other :
    let s : State := bootWith { Config.default with opcodeMap := otherMap } [0xA3, 0x07, 0x00]
    s.runState = .running ∧ s.cfg.budget = none ∧ s.pc.toNat + 2 < s.cfg.memSize ∧
      s.cfg.opcodeMap.lookup (s.readCell s.pc.toNat) = some (.alu (.other 3)) ∧
      s.readCell (s.pc.toNat + 1) = regOperand 7 ∧ s.readCell (s.pc.toNat + 2) = regOperand 0 := by decide

theorem witness_UnsupportedAluKindFaults_default :
    (boot [0xA3]).cfg.opcodeMap = defaultOpcodeMap ∧ step (boot [0xA3]) = .next (after (boot [0xA3])) ∧
      (after (boot [0xA3])).runState = .faulted := ⟨rfl, rfl, rfl⟩

/-- A step that faults: for `FaultingStepChangesNothingElse` and `FaultRecordNamesTheInstruction`, with an opcode
fetched, and with none. -/
theorem witness_faulting_step :
    step (boot [0x46]) = .next (after (boot [0x46])) ∧ (after (boot [0x46])).runState = .faulted ∧
      step (codeAt 0x100 []) = .next (after (codeAt 0x100 [])) ∧ (after (codeAt 0x100 [])).runState = .faulted :=
  ⟨rfl, rfl, rfl, rfl⟩

/-- A step that completes: for `CompletedStepCountsOne`, `ConfigurationNeverChanges` and `OutputGrowsOnlyByPrn`. -/
theorem witness_completed_step :
    step (boot [0x47, 0x07]) = .next (after (boot [0x47, 0x07])) ∧ (after (boot [0x47, 0x07])).runState = .running ∧
      (after (boot [0x47, 0x07])).output = [0xF4] := ⟨rfl, rfl, rfl⟩

/-- A halting step and, without a budget, a faulting one: the two clauses of `RunningStepCompletesOrFaults`. -/
theorem witness_RunningStepCompletesOrFaults :
    (boot [0x01]).runState = .running ∧ (after (boot [0x01])).runState = .halted ∧
      (boot [0x46]).runState = .running ∧ (boot [0x46]).cfg.budget = none ∧
      (after (boot [0x46])).runState = .faulted := by decide

theorem witness_TerminalStatesTakeNoStep :
    State.reset.runState ≠ .running ∧ (after (boot [0x01])).Terminal ∧ (after (boot [0x46])).Terminal ∧
      PortEvent.run ≠ .construct := ⟨by decide, .inl rfl, .inr rfl, by decide⟩

/-- A `PUSH R1` at 0x06 whose store lands on the cell behind it: the program of P7 when R1 holds 0x01, the `HLT` opcode. -/
def patching (v : Byte) : State := ((codeAt 0x06 [0x45, 0x01]).writeReg 1 v).writeReg 7 0x09

/-- The hypotheses with a pushed opcode, and the clause of a byte that decodes (P7). -/
theorem witness_StoredOpcodeRunsNext_push :
    (patching 0x01).cfg.wf ∧ (patching 0x01).mem.wf ∧ step (patching 0x01) = .next (after (patching 0x01)) ∧
      (after (patching 0x01)).runState = .running ∧ (after (patching 0x01)).cfg.budget = none ∧
      (after (patching 0x01)).pc.toNat = (patching 0x01).sp.toNat - 1 ∧
      (patching 0x01).fetch = .ok (.push (regOperand 1)) ∧ (1 : RegIdx) ≠ spIndex ∧ (patching 0x01).readReg 1 = 0x01 ∧
      decode (patching 0x01).cfg.opcodeMap (0x01 :: (patching 0x01).bytesFrom (patching 0x01).sp.toNat 2) =
        .ok (.hlt, [0x00, 0x00]) :=
  ⟨by decide, by decide, rfl, rfl, rfl, by decide, rfl, by decide, rfl, rfl⟩

/-- The clause of a pushed byte without a row. -/
theorem witness_StoredOpcodeRunsNext_illegal :
    (patching 0xFF).mem.wf ∧ step (patching 0xFF) = .next (after (patching 0xFF)) ∧
      (after (patching 0xFF)).runState = .running ∧ (after (patching 0xFF)).pc.toNat = (patching 0xFF).sp.toNat - 1 ∧
      (patching 0xFF).fetch = .ok (.push (regOperand 1)) ∧ (patching 0xFF).readReg 1 = 0xFF ∧
      (patching 0xFF).cfg.opcodeMap.lookup 0xFF = none :=
  ⟨by decide, rfl, rfl, by decide, rfl, rfl, by decide⟩

/-- A `PUSH R7` whose own SP is the stored opcode: SP = 0x12 stores 0x11, the `RET` opcode, in cell 0x11. -/
theorem witness_StoredOpcodeRunsNext_push_sp :
    let s : State := (codeAt 0x0F [0x45, 0x07]).writeReg 7 0x12
    s.cfg.wf ∧ s.mem.wf ∧ step s = .next (after s) ∧ (after s).runState = .running ∧
      (after s).pc.toNat = s.sp.toNat - 1 ∧ s.fetch = .ok (.push (regOperand spIndex)) ∧ s.sp - 1 = 0x11 :=
  ⟨by decide, by decide, rfl, rfl, by decide, rfl, by decide⟩

/-- A `CALL` at 0x43 to the cell of its own return address 0x45, the `PUSH` opcode. -/
theorem witness_StoredOpcodeRunsNext_call :
    let s : State := ((codeAt 0x43 [0x50, 0x01]).writeReg 1 0x4F).writeReg 7 0x50
    s.cfg.wf ∧ s.mem.wf ∧ step s = .next (after s) ∧ (after s).runState = .running ∧ (after s).cfg.budget = none ∧
      (after s).pc.toNat = s.sp.toNat - 1 ∧ s.fetch = .ok (.call (regOperand 1)) ∧ (0x45 : Byte).toNat = s.pc.toNat + 2 ∧
      decode s.cfg.opcodeMap (0x45 :: s.bytesFrom s.sp.toNat 2) = .ok (.push 0x00, [0x00]) :=
  ⟨by decide, by decide, rfl, rfl, rfl, by decide, rfl, by decide, rfl⟩

/-- The boundary: a one-byte opcode pushed into the last of sixteen cells, with no cell behind it. -/
theorem witness_StoredOpcodeRunsNext_last_cell :
    let s : State := ((({ bootWith smallConfig [] with pc := 13 }).placeCode [0x45, 0x01]).writeReg 1 0x01).writeReg 7 16
    s.cfg.wf ∧ s.mem.wf ∧ step s = .next (after s) ∧ (after s).runState = .running ∧
      (after s).pc.toNat = s.sp.toNat - 1 ∧ s.fetch = .ok (.push (regOperand 1)) ∧
      s.bytesFrom s.sp.toNat 2 = [] := ⟨by decide, by decide, rfl, rfl, by decide, rfl, by decide⟩

/-- A jump to itself, under a budget of nothing at all and of five. -/
theorem witness_BudgetBoundsTheRun :
    let s (b : Nat) : State := bootWith { Config.default with budget := some b } [0x54, 0x00]
    (s 0).runState = .running ∧ (s 0).cfg.budget = some 0 ∧ (s 0).steps ≤ 0 ∧
      (s 5).runState = .running ∧ (s 5).cfg.budget = some 5 ∧ (s 5).steps ≤ 5 := by decide

theorem witness_ConstructionMeetsTheInvariant : smallConfig.wf ∧ Config.default.wf := by decide

/-- A completing step in the last three cells, and a faulting one there, from states that meet the invariant. -/
theorem witness_StepKeepsTheInvariant :
    (codeAt 0xFD [0x82, 0x01, 0x02]).Inv ∧
      step (codeAt 0xFD [0x82, 0x01, 0x02]) = .next (after (codeAt 0xFD [0x82, 0x01, 0x02])) ∧
      (after (codeAt 0xFD [0x82, 0x01, 0x02])).pc = 0x100 ∧ (codeAt 0xFD [0x82, 0x08]).Inv ∧
      (after (codeAt 0xFD [0x82, 0x08])).runState = .faulted :=
  ⟨inv_codeAt _ (by decide), rfl, rfl, inv_codeAt _ (by decide), rfl⟩

theorem witness_PortsKeepTheInvariant : (codeAt 0xFD [0x01]).Inv := inv_codeAt _ (by decide)

/-- An image of exactly the sixteen cells, its last byte, and an image of one byte with the cell behind it. -/
theorem witness_LoadPlacesTheImage :
    (List.replicate 16 (0x47 : Byte)).length ≤ smallConfig.memSize ∧
      (List.replicate 16 (0x47 : Byte))[15]? = some 0x47 ∧ [(0x01 : Byte)].length ≤ 1 ∧
      (boot []).runState ≠ .loading := by decide

/-- One byte too many, and exactly enough. -/
theorem witness_OversizedImageFaults :
    smallConfig.memSize < (List.replicate 17 (0x47 : Byte)).length ∧
      (List.replicate 16 (0x47 : Byte)).length = smallConfig.memSize := by decide

/-- A state with a record, and one without. -/
theorem witness_StatusPortShowsCodesAndFlags :
    (after (boot [0x46])).faultRecord = some ⟨.stackUnderflow, 0, some 0x46⟩ ∧ (boot []).faultRecord = none := by decide

theorem witness_BootRunsTheImageFromZero :
    [(0x82 : Byte), 0x00, 0x08].length ≤ State.reset.cfg.memSize ∧ [(0x82 : Byte), 0x00, 0x08][2]? = some 0x08 := by decide

end Sys2Proof.Tests
end

/-! The flags belong to `CMP` (R20, R21). The idea: two handler bodies that run the same checks, in the same order, and
apply the same writes up to the flags end alike up to the flags; every instruction is such a pair of bodies when the
flags L and G are changed under it. -/

namespace Sys2Proof.Machine

/-! ### Handler bodies that end alike up to the flags -/

/-- The two handler bodies raise the same fault, or end in states that become equal once both hold the same flags. -/
def SameButFlags (e e' : Except FaultKind State) : Prop :=
  ∀ g : Flags, (State.writeFlags · g) <$> e = (State.writeFlags · g) <$> e'

theorem SameButFlags.ok {t u : State} (h : ∀ g, t.writeFlags g = u.writeFlags g) : SameButFlags (.ok t) (.ok u) :=
  fun g => congrArg Except.ok (h g)

theorem SameButFlags.error (k : FaultKind) : SameButFlags (.error k) (.error k) := fun _ => rfl

/-- The same check or read in front of both bodies. -/
theorem SameButFlags.bind {α : Type} (x : Except FaultKind α) {F F' : α → Except FaultKind State}
    (h : ∀ a, SameButFlags (F a) (F' a)) : SameButFlags (x >>= F) (x >>= F') := by
  cases x with
  | ok a => exact h a
  | error k => exact .error k

/-- A push reads no flag and keeps them: it commutes with a change of the flags (R81). -/
theorem State.push_writeFlags {s : State} {f : Flags} {value : State → Byte}
    (hvalue : value (s.decSp.writeFlags f) = value s.decSp) :
    (s.writeFlags f).push value = (State.writeFlags · f) <$> s.push value := by
  have hdec : (s.writeFlags f).decSp = s.decSp.writeFlags f := rfl
  unfold State.push State.memWrite
  rw [hdec, hvalue, apply_ite (Functor.map (State.writeFlags · f))]
  rfl

/-- A push and the pc update after it store the same byte and fault alike, whatever the flags (R81, R83). -/
theorem sameButFlags_push {s : State} {f : Flags} {value : State → Byte} (mode : PcMode)
    (hvalue : value (s.decSp.writeFlags f) = value s.decSp) :
    SameButFlags (s.push value >>= fun t => pure (t.updatePc mode))
      ((s.writeFlags f).push value >>= fun t => pure (t.updatePc mode)) := by
  rw [State.push_writeFlags hvalue]
  cases s.push value with
  | ok t => exact .ok fun g => by cases mode <;> rfl
  | error k => exact .error k

/-! ### Instructions that end alike up to the flags -/

/-- Bodies that end alike up to the flags make instructions that do, since fault entry reads no flag (R101). -/
theorem conclude_of_sameButFlags {s t : State} {f : Flags} {e e' : Except FaultKind State}
    (h : s.conclude e = .next t) (hb : SameButFlags e e') :
    ∃ u, (s.writeFlags f).conclude e' = .next u ∧ u.writeFlags t.flags = t := by
  have hg := hb t.flags
  cases e with
  | ok t' =>
    cases h
    cases e' with
    | ok u => exact ⟨u, rfl, (Except.ok.inj hg).symm⟩
    | error k => cases hg
  | error k =>
    cases h
    cases e' with
    | ok u => cases hg
    | error k' =>
      cases hg
      exact ⟨_, rfl, rfl⟩

theorem withReg_of_sameButFlags {b : Byte} {s t : State} {f : Flags}
    {handler handler' : RegIdx → Except FaultKind State}
    (h : withReg b s handler = .next t) (hb : ∀ r, SameButFlags (handler r) (handler' r)) :
    ∃ u, withReg b (s.writeFlags f) handler' = .next u ∧ u.writeFlags t.flags = t := by
  rw [withReg_eq_conclude] at h ⊢
  exact conclude_of_sameButFlags h (.bind _ hb)

/-- No ALU operation has the flags for an input (R73). -/
theorem aluStep_writeFlags_next {op : AluOp} {ra rb : Byte} {s t : State} {f : Flags}
    (h : aluStep op ra rb s = .next t) :
    ∃ u, aluStep op ra rb (s.writeFlags f) = .next u ∧ u.writeFlags t.flags = t := by
  rw [aluStep, withTwoRegs_eq_conclude] at h ⊢
  refine conclude_of_sameButFlags h (.bind _ fun a => .bind _ fun b => ?_)
  simp only [State.readReg_writeFlags]
  cases aluCompute op (s.readReg a) (s.readReg b) with
  | ok res => exact .ok fun g => by cases res <;> rfl
  | error k => exact .error k

/-- With other values of L and G, every instruction does the same to everything but the flags (R21). -/
theorem exec_writeFlags_next {i : Instr} {s t : State} {f : Flags} (he : f.e = s.flags.e) (h : exec i s = .next t) :
    ∃ u, exec i (s.writeFlags f) = .next u ∧ u.writeFlags t.flags = t := by
  cases i with
  | hlt =>
    cases h
    exact ⟨_, rfl, rfl⟩
  | ret => exact conclude_of_sameButFlags h (.bind _ fun _ => .bind _ fun _ => .ok fun _ => rfl)
  | push r => exact withReg_of_sameButFlags h fun _ => .bind _ fun _ => sameButFlags_push _ rfl
  | pop r => exact withReg_of_sameButFlags h fun _ => .bind _ fun _ => .bind _ fun _ => .ok fun _ => rfl
  | call r => exact withReg_of_sameButFlags h fun _ => .bind _ fun _ => .bind _ fun _ => sameButFlags_push _ rfl
  | jeq r | jne r =>
    refine withReg_of_sameButFlags h fun r => ?_
    rw [State.writeFlags_flags, he]
    exact .ok fun _ => rfl
  | prn r | jmp r | ldi r v => exact withReg_of_sameButFlags h fun _ => .ok fun _ => rfl
  | add ra rb => exact aluStep_writeFlags_next (op := .add) h
  | mul ra rb => exact aluStep_writeFlags_next (op := .mul) h
  | cmp ra rb => exact aluStep_writeFlags_next (op := .cmp) h

/-! ### The flags belong to `CMP` -/

/-- No instruction but `CMP` writes a flag, and no fault does (R20, R101). -/
theorem exec_flags_of_ne_cmp {i : Instr} {s t : State} (h : exec i s = .next t) (hi : ∀ ra rb, i ≠ .cmp ra rb) :
    t.flags = s.flags := by
  rcases exec_next_cases h with hc | ⟨k, -, rfl⟩
  · cases hc with
    | cmp => exact absurd rfl (hi _ _)
    | _ => rfl
  · rfl

/-- `CMP` writes all three flags: what they were before does not show in its next state (R20, R78). -/
theorem exec_cmp_writeFlags (ra rb : RegIdx) (s : State) (f : Flags) :
    exec (.cmp (regOperand ra) (regOperand rb)) (s.writeFlags f) =
      exec (.cmp (regOperand ra) (regOperand rb)) s := by
  rw [exec_of_completed (.cmp rfl rfl), exec_of_completed (.cmp rfl rfl)]
  rfl

/-- Settles O28: the frame of the flags is read off the completions, and L and G are read by no handler body; `JEQ` and
`JNE` are given by their completions on opposite values of E. -/
theorem flagsBelongToCmp : Obligations.FlagsBelongToCmp := by
  refine ⟨fun i s t => exec_flags_of_ne_cmp, fun ra rb s f => ?_, fun i s t l g h => exec_writeFlags_next rfl h,
    fun r s e => ?_⟩
  · have hcmp := exec_of_completed (.cmp (s := s) (a := ra) (b := rb) rfl rfl)
    exact ⟨_, hcmp, (exec_cmp_writeFlags ra rb s f).trans hcmp⟩
  · refine ⟨_, _, exec_of_completed (.jeq rfl), exec_of_completed (.jne rfl), rfl, ?_⟩
    cases e <;> rfl

end Sys2Proof.Machine

/-! The opcode byte alone fixes the length (R47). The idea: a missing operand is decided by the operand shape, before
any operand byte is looked at; what is decoded has the operand bytes of its handler's format. -/

namespace Sys2Proof

/-- A format has at most two operand bytes (R48). -/
theorem Format.operandCount_le_two (f : Format) : f.operandCount ≤ 2 := by
  cases f <;> decide

/-- An instruction has as many operand bytes as its handler's format says (R48). -/
theorem Instr.length_operands (i : Instr) : i.operands.length = i.handler.operandCount := by
  cases i <;> rfl

/-- Behind a recognized opcode the decoder reads the handler's operands (R47, R49). -/
theorem decode_cons_of_lookup {m : OpcodeMap} {opcode : Byte} {h : Handler} (hl : m.lookup opcode = some h)
    (after : List Byte) : decode m (opcode :: after) = decodeOperands opcode h after := by
  simp only [decode, hl]

/-! ### When an operand is missing (R64) -/

theorem takeOne_missingOperand_iff {opcode : Byte} {mk : Byte → Instr} {bytes : List Byte} :
    takeOne opcode mk bytes = .error (.missingOperand opcode) ↔ bytes.length < 1 := by
  cases bytes with
  | nil => simp [takeOne]
  | cons a l => simp [takeOne]

/-- Two bytes are enough: the maker of the instruction then reports no missing operand. -/
theorem takeTwo_missingOperand_iff {opcode : Byte} {mk : Byte → Byte → Except DecodeError Instr} {bytes : List Byte}
    (hmk : ∀ a b, mk a b ≠ .error (.missingOperand opcode)) :
    takeTwo opcode mk bytes = .error (.missingOperand opcode) ↔ bytes.length < 2 := by
  match bytes with
  | [] => simp [takeTwo]
  | [a] => simp [takeTwo]
  | a :: b :: l =>
    have hab := hmk a b
    cases hm : mk a b with
    | ok i => simp [takeTwo, hm]
    | error e =>
      rw [hm] at hab
      simpa [takeTwo, hm] using hab

/-- An ALU operation kind is accepted or rejected as a kind (R74), never for a missing operand. -/
theorem aluInstr_ne_missingOperand (op : AluOp) (opcode a b : Byte) :
    aluInstr op a b ≠ .error (.missingOperand opcode) := by
  cases op <;> simp [aluInstr]

/-- An operand is missing exactly when fewer bytes follow the opcode than the handler's operand count (R47, R64). -/
theorem decodeOperands_missingOperand_iff {opcode : Byte} {h : Handler} {bytes : List Byte} :
    decodeOperands opcode h bytes = .error (.missingOperand opcode) ↔ bytes.length < h.operandCount := by
  cases h with
  | hlt | ret => simp [decodeOperands, Handler.operandCount, Handler.format, Format.operandCount]
  | push | pop | prn | call | jmp | jeq | jne => exact takeOne_missingOperand_iff
  | ldi => exact takeTwo_missingOperand_iff (mk := fun r v => .ok (.ldi r v)) fun _ _ => by simp
  | alu op => exact takeTwo_missingOperand_iff (aluInstr_ne_missingOperand op opcode)

/-! ### The length -/

/-- What the operand decoder gives took exactly the handler's operand count of bytes (R47). -/
theorem decodeOperands_length {opcode : Byte} {h : Handler} {bytes rest : List Byte} {i : Instr}
    (hd : decodeOperands opcode h bytes = .ok (i, rest)) : bytes.length = h.operandCount + rest.length := by
  obtain ⟨rfl, rfl⟩ := decodeOperands_ok hd
  rw [List.length_append, Instr.length_operands]

/-- Settles O5: behind a recognized opcode only the handler's operands are decoded, whose number is its format's. -/
theorem opcodeAloneFixesTheLength : Obligations.OpcodeAloneFixesTheLength := by
  intro m opcode h after hl
  rw [decode_cons_of_lookup hl]
  refine ⟨h.format.operandCount_le_two, decodeOperands_missingOperand_iff, fun i rest hd =>
    ⟨?_, (decodeOperands_ok hd).2⟩⟩
  rw [List.length_cons, decodeOperands_length hd]
  omega

end Sys2Proof

/-! The two ends of a run (R68, R71). The idea: each way a step can fault latches a record over the state it began in,
and a port that acts only in `loading` leaves every terminal state alone. -/

namespace Sys2Proof.Machine

/-! ### A step that faults -/

/-- A step that ends in `faulted` did nothing but latch a record: no completed instruction ends there (R68, R101). -/
theorem step_faulted_eq_latchFault {s t : State} (h : step s = .next t) (hf : t.runState = .faulted) :
    ∃ record, t = s.latchFault record := by
  obtain ⟨hr, ⟨-, hbudget⟩ | ⟨-, k, -, hfault⟩ | ⟨-, i, u, -, hcompleted, rfl⟩⟩ := step_next_cases h
  · exact ⟨_, hbudget⟩
  · exact ⟨_, hfault⟩
  · exact absurd hf (hcompleted.runState_ne_faulted hr)

/-- Settles O37: a faulting step latches a record, which is all that fault entry does. -/
theorem faultingStepChangesNothingElse : Obligations.FaultingStepChangesNothingElse :=
  fun _ _ => step_faulted_eq_latchFault

/-! ### Terminal states -/

theorem State.Terminal.ne_loading {s : State} (h : s.Terminal) : s.runState ≠ .loading := by
  obtain hr | hr := h <;> simp [hr]

/-- Outside `loading` the budget port does nothing (R116). -/
theorem State.setBudget_not_loading {s : State} {b : Option Nat} (hl : s.runState ≠ .loading) : s.setBudget b = s :=
  if_neg hl

/-- Outside `loading` the run port does nothing (R117). -/
theorem State.start_not_loading {s : State} (hl : s.runState ≠ .loading) : s.start = s :=
  if_neg hl

/-- Outside `loading` no port but `construct` does anything. -/
theorem State.port_not_loading {s : State} {event : PortEvent} (hl : s.runState ≠ .loading)
    (hc : event ≠ .construct) : s.port event = s := by
  cases event with
  | construct => exact absurd rfl hc
  | image bytes => exact State.loadImage_not_loading hl
  | budget b => exact State.setBudget_not_loading hl
  | run => exact State.start_not_loading hl

/-- Settles O41: a step that answers was taken in `running`, and a terminal state is not in `loading`, where the ports
other than `construct` act. -/
theorem terminalStatesTakeNoStep : Obligations.TerminalStatesTakeNoStep :=
  ⟨fun _ _ hr h => hr (step_next_cases h).1, fun _ _ ht hc => State.port_not_loading ht.ne_loading hc⟩

end Sys2Proof.Machine

/-! Decode and encode agree (R48, R52, R56). The idea: a map with one row for a byte looks an instruction's opcode up as
its handler, and behind a handler's opcode the decoder takes exactly the operands of an instruction of that handler. -/

namespace Sys2Proof

/-- An instruction's operands behind an opcode of its handler decode as it. -/
theorem decode_cons_operands {m : OpcodeMap} {opcode : Byte} {i : Instr} (hl : m.lookup opcode = some i.handler)
    (rest : List Byte) : decode m (opcode :: (i.operands ++ rest)) = .ok (i, rest) := by
  rw [decode_cons_of_lookup hl, decodeOperands_operands]

/-- Under a map with at most one row for a byte, an instruction's bytes decode as it (R47, R49). -/
theorem decode_encodeWith {m : OpcodeMap} {i : Instr} {bytes : List Byte} (hm : (m.map Prod.fst).Nodup)
    (he : encodeWith m i = some bytes) (rest : List Byte) : decode m (bytes ++ rest) = .ok (i, rest) := by
  obtain ⟨opcode, hopcode, rfl⟩ := Option.map_eq_some_iff.mp he
  exact decode_cons_operands (lookup_opcodeOf hm hopcode) rest

/-- Settles O3: the opcode is looked up as the instruction's handler, under any map by its row, under the map of this
hardware by R52's table. -/
theorem decodeOfEncodeIsTheInstruction : Obligations.DecodeOfEncodeIsTheInstruction :=
  ⟨fun _ _ _ rest hm he => decode_encodeWith hm he rest, fun i rest => decode_cons_operands (lookup_opcode i) rest⟩

/-- What decodes is an opcode with a row, and the operands of an instruction of that row's handler. -/
theorem decode_ok {m : OpcodeMap} {bytes rest : List Byte} {i : Instr} (h : decode m bytes = .ok (i, rest)) :
    ∃ opcode, m.lookup opcode = some i.handler ∧ bytes = opcode :: (i.operands ++ rest) := by
  cases bytes with
  | nil => cases h
  | cons opcode bytes =>
    cases hl : m.lookup opcode with
    | none => simp [decode, hl] at h
    | some handler =>
      rw [decode_cons_of_lookup hl] at h
      obtain ⟨rfl, rfl⟩ := decodeOperands_ok h
      exact ⟨opcode, hl, rfl⟩

/-- Each handler has one row in the map of this hardware, the row of its instructions' opcode (R52). -/
theorem eq_opcode_of_mem_defaultOpcodeMap (i : Instr) :
    ∀ row ∈ defaultOpcodeMap, row.2 = i.handler → row.1 = i.opcode := by
  cases i <;> simp only [Instr.handler, Instr.opcode] <;> decide

/-- A byte that this hardware looks up as an instruction's handler is that instruction's opcode (R52). -/
theorem eq_opcode_of_lookup {opcode : Byte} {i : Instr} (hl : defaultOpcodeMap.lookup opcode = some i.handler) :
    opcode = i.opcode := by
  obtain ⟨l₁, l₂, hmap, -⟩ := List.lookup_eq_some_iff.mp hl
  exact eq_opcode_of_mem_defaultOpcodeMap i (opcode, i.handler) (hmap ▸ List.mem_append_cons_self) rfl

/-- Settles O4: the decoded opcode has the instruction's handler, so it is the instruction's own opcode byte. -/
theorem decodedBytesAreTheEncoding : Obligations.DecodedBytesAreTheEncoding := by
  intro bytes rest i h
  obtain ⟨opcode, hl, rfl⟩ := decode_ok h
  rw [eq_opcode_of_lookup hl]
  rfl

/-- Settles O1: each word is the encoding of its instruction, so it decodes to it and leaves nothing. -/
theorem opcodeTableWordsDecode : Obligations.OpcodeTableWordsDecode := by
  have h (i : Instr) : decode defaultOpcodeMap (encode i ++ []) = .ok (i, []) :=
    decodeOfEncodeIsTheInstruction.2 i []
  exact ⟨h .hlt, h .ret, h (.push 3), h (.pop 4), h (.prn 5), h (.call 6), h (.jmp 7), h (.jeq 1), h (.jne 2),
    h (.ldi 1 0xC3), h (.add 2 5), h (.mul 3 6), h (.cmp 4 7)⟩

/-- A byte without a row is rejected with its own value, whatever follows (R55, R63). -/
theorem decode_cons_of_lookup_none {m : OpcodeMap} {opcode : Byte} (hl : m.lookup opcode = none) (rest : List Byte) :
    decode m (opcode :: rest) = .error (.unrecognizedOpcode opcode) := by
  simp only [decode, hl]

/-- Settles O2: the count is over the 256 bytes; that a byte without a row is rejected holds for every map. -/
theorem twoHundredFortyThreeOpcodesAreIllegal : Obligations.TwoHundredFortyThreeOpcodesAreIllegal :=
  ⟨by decide +kernel, by decide, fun _ rest hl => decode_cons_of_lookup_none hl rest⟩

end Sys2Proof

/-! What the named updates do to cells, registers and the pc, stated once for the completions below. -/

namespace Sys2Proof.Machine

/-! ### Cells -/

theorem memoryKept_of_mem_eq {s t : State} (h : t.mem = s.mem) : MemoryKept s t :=
  fun a => congrArg (Memory.read · a) h

theorem State.readCell_setCell {s : State} (hm : s.mem.wf) (a b : Nat) (v : Byte) :
    (s.setCell a v).readCell b = if b = a then v else s.readCell b :=
  Memory.read_write hm a b v

/-- The store of a push is to the cell below SP, by its address before the push (R81). -/
theorem State.readCell_push {s : State} (hm : s.mem.wf) (hsp : s.sp ≠ 0) (v : Byte) (a : Nat) :
    (s.decSp.setCell s.decSp.sp.toNat v).readCell a = if a = s.sp.toNat - 1 then v else s.readCell a := by
  rw [State.readCell_setCell (by exact hm), State.toNat_sp_decSp s hsp]
  rfl

theorem memRead_congr {s t : State} {a : Nat} (hn : t.cfg.memSize = s.cfg.memSize)
    (h : t.readCell a = s.readCell a) : t.memRead a = s.memRead a := by
  have h' : t.mem.read a = s.mem.read a := h
  rw [State.memRead, State.memRead, hn, h']

/-- Settles O6: the write sets the one cell, and memory lists no cell of a constructed state. -/
theorem cellReadReturnsTheLatestWrite : Obligations.CellReadReturnsTheLatestWrite := by
  refine ⟨fun s a v hm ha => ⟨s.setCell a v, State.memWrite_ok_iff.mpr ⟨ha, rfl⟩, ?_, fun b hb => ?_, rfl⟩,
    fun c a ha => State.memRead_ok_iff.mpr ⟨ha, rfl⟩⟩
  · exact State.memRead_ok_iff.mpr ⟨ha, by rw [State.readCell_setCell hm, if_pos rfl]⟩
  · exact memRead_congr rfl (by rw [State.readCell_setCell hm, if_neg hb])

/-- Settles O7: the one address check of a read and of a write is the comparison with N. -/
theorem addressOutOfRangeFaults : Obligations.AddressOutOfRangeFaults := by
  intro s a v
  by_cases h : a < s.cfg.memSize
  · simp [State.memRead, State.memWrite, h]
  · simp [State.memRead, State.memWrite, h, Nat.le_of_not_lt h]

/-! ### Registers -/

/-- Settles O8, by the law of the register file; SP is the read of R7. -/
theorem registerReadReturnsTheLatestWrite : Obligations.RegisterReadReturnsTheLatestWrite :=
  fun s r q v => ⟨s.readReg_writeReg r q v, s.readReg_writeReg_same spIndex v⟩

theorem regsKeptBut_writeReg (s : State) (r : RegIdx) (v : Byte) : RegsKeptBut [r] s (s.writeReg r v) :=
  fun _ hq => s.readReg_writeReg_other (List.ne_of_not_mem_cons hq) v

theorem regsKeptBut_incSp (s : State) : RegsKeptBut [spIndex] s s.incSp := regsKeptBut_writeReg s spIndex _

theorem regsKeptBut_decSp (s : State) : RegsKeptBut [spIndex] s s.decSp := regsKeptBut_writeReg s spIndex _

theorem regsKeptBut_writeReg_incSp (s : State) (r : RegIdx) (v : Byte) :
    RegsKeptBut [r, spIndex] s (s.writeReg r v).incSp := by
  intro q hq
  obtain ⟨hr, hsp⟩ : q ≠ r ∧ q ≠ spIndex := by simpa using hq
  rw [State.readReg_incSp, if_neg hsp, State.readReg_writeReg_other s hr]

theorem State.sp_writeReg_other (s : State) {r : RegIdx} (hr : r ≠ spIndex) (v : Byte) : (s.writeReg r v).sp = s.sp :=
  s.readReg_writeReg_other hr.symm v

/-! ### The pc (R66, R67) -/

/-- A byte as the pc is the same number. -/
theorem toNat_setWidth_pc (v : Byte) : (v.setWidth 9 : PcWord).toNat = v.toNat :=
  BitVec.toNat_setWidth_of_le (by decide)

theorem State.pcNext_cond (s : State) (c : Bool) (r : RegIdx) :
    (c = true → (s.pcNext (.cond c r)).toNat = (s.readReg r).toNat) ∧
      (c = false → s.pcNext (.cond c r) = s.pc + 2) := by
  cases c with
  | true => exact ⟨fun _ => toNat_setWidth_pc _, nofun⟩
  | false => exact ⟨nofun, fun _ => rfl⟩

/-- The 9-bit sum does not wrap up to 511, so not for an instruction that lies in memory (R67). -/
theorem toNat_pc_add {pc : PcWord} {k : Nat} (h : pc.toNat + k ≤ 256) :
    (pc + BitVec.ofNat 9 k).toNat = pc.toNat + k := by
  rw [BitVec.toNat_add, BitVec.toNat_ofNat]
  omega

end Sys2Proof.Machine

/-! The completions that touch no stack: each is its rule's completion, read field by field (R76 to R78, R89 to R94). -/

namespace Sys2Proof.Machine

/-- Exactly one of E, L, G is true after a comparison (R78). -/
theorem Flags.count_compare (a b : Byte) :
    [(Flags.compare a b).e, (Flags.compare a b).l, (Flags.compare a b).g].count true = 1 := by
  rcases Nat.lt_trichotomy a.toNat b.toNat with h | h | h
  · simp [Flags.compare, h, Nat.ne_of_lt h, Nat.le_of_lt h]
  · simp [Flags.compare, h]
  · simp [Flags.compare, h, Nat.ne_of_gt h, Nat.le_of_lt h]

/-- Settles O9: the sum is written back to the first register, already reduced modulo 256. -/
theorem addWritesTheSumModulo256 : Obligations.AddWritesTheSumModulo256 := by
  refine fun ra rb s => ⟨_, exec_of_completed (.add rfl rfl), ?_, regsKeptBut_writeReg s ra _, rfl, rfl,
    memoryKept_of_mem_eq rfl, rfl, rfl, rfl, rfl, rfl⟩
  rw [State.readReg_updatePc, State.readReg_writeReg_same, BitVec.toNat_ofNat, Nat.mod_mod]

/-- Settles O10: as for the sum, with the ALU's product. -/
theorem mulWritesTheProductModulo256 : Obligations.MulWritesTheProductModulo256 := by
  refine fun ra rb s => ⟨_, exec_of_completed (.mul rfl rfl), ?_, regsKeptBut_writeReg s ra _, rfl, rfl,
    memoryKept_of_mem_eq rfl, rfl, rfl, rfl, rfl, rfl⟩
  rw [State.readReg_updatePc, State.readReg_writeReg_same, BitVec.toNat_ofNat, Nat.mod_mod]

/-- Settles O11: the flags are the three comparisons, of which exactly one holds. -/
theorem cmpSetsTheFlagsUnsigned : Obligations.CmpSetsTheFlagsUnsigned :=
  fun _ _ _ => ⟨_, exec_of_completed (.cmp rfl rfl), decide_eq_true_iff, decide_eq_true_iff, decide_eq_true_iff,
    Flags.count_compare _ _, fun _ _ => rfl, rfl, memoryKept_of_mem_eq rfl, rfl, rfl, rfl, rfl, rfl⟩

/-- Settles O12: the one write of `LDI` is the immediate. -/
theorem ldiWritesTheImmediate : Obligations.LdiWritesTheImmediate :=
  fun r v s => ⟨_, exec_of_completed (.ldi rfl v), s.readReg_writeReg_same r v, regsKeptBut_writeReg s r v, rfl, rfl,
    memoryKept_of_mem_eq rfl, rfl, rfl, rfl, rfl, rfl⟩

/-- Settles O13: `PRN` emits and writes nothing else. -/
theorem prnAppendsTheRegister : Obligations.PrnAppendsTheRegister :=
  fun _ _ => ⟨_, exec_of_completed (.prn rfl), rfl, fun _ _ => rfl, rfl, rfl, memoryKept_of_mem_eq rfl, rfl, rfl, rfl,
    rfl⟩

/-- Settles O14: the pc update of `HLT` holds the pc, so only the run state differs. -/
theorem hltStopsInPlace : Obligations.HltStopsInPlace := fun _ => exec_of_completed .hlt

/-- Settles O15: the register's byte, widened to 9 bits, is the same number. -/
theorem jmpGoesToTheRegister : Obligations.JmpGoesToTheRegister :=
  fun _ _ => ⟨_, exec_of_completed (.jmp rfl), toNat_setWidth_pc _, fun _ _ => rfl, rfl, memoryKept_of_mem_eq rfl, rfl,
    rfl, rfl, rfl, rfl⟩

/-- Settles O16: the condition is E. -/
theorem jeqFollowsTheEqualFlag : Obligations.JeqFollowsTheEqualFlag := by
  intro r s
  obtain ⟨htaken, hnot⟩ := s.pcNext_cond s.flags.e r
  exact ⟨_, exec_of_completed (.jeq rfl), htaken, hnot, fun _ _ => rfl, rfl, memoryKept_of_mem_eq rfl, rfl, rfl, rfl,
    rfl, rfl⟩

/-- Settles O17: the condition is the negation of E. -/
theorem jneFollowsTheClearEqualFlag : Obligations.JneFollowsTheClearEqualFlag := by
  intro r s
  obtain ⟨htaken, hnot⟩ := s.pcNext_cond (!s.flags.e) r
  exact ⟨_, exec_of_completed (.jne rfl), fun he => htaken (by simp [he]), fun he => hnot (by simp [he]),
    fun _ _ => rfl, rfl, memoryKept_of_mem_eq rfl, rfl, rfl, rfl, rfl, rfl⟩

end Sys2Proof.Machine

/-! What every completed instruction keeps, one lemma per part of the state. -/

namespace Sys2Proof.Machine

section Completions

variable {s t : State} {i : Instr}

theorem Completed.cfg_eq (h : Completed s i t) : t.cfg = s.cfg := by
  cases h <;> rfl

theorem Completed.steps_eq (h : Completed s i t) : t.steps = s.steps := by
  cases h <;> rfl

theorem Completed.faultRecord_eq (h : Completed s i t) : t.faultRecord = s.faultRecord := by
  cases h <;> rfl

/-- Only `HLT` changes the run state, and it changes nothing else (R94). -/
theorem Completed.halts_or_keeps_runState (h : Completed s i t) :
    (i = .hlt ∧ t = { s with runState := .halted }) ∨ t.runState = s.runState := by
  cases h with
  | hlt => exact .inl ⟨rfl, rfl⟩
  | _ => exact .inr rfl

theorem Completed.runState_ne_loading (h : Completed s i t) (hr : s.runState = .running) : t.runState ≠ .loading := by
  obtain ⟨-, rfl⟩ | hkept := h.halts_or_keeps_runState
  · exact nofun
  · rw [hkept, hr]
    exact nofun

/-- Only `PRN` emits, the byte of its register (R93, R107). -/
theorem Completed.output_cases (h : Completed s i t) :
    t.output = s.output ∨
      ∃ r, i = .prn (regOperand r) ∧ t.output = s.output ++ [s.readReg r] ∧ t.runState = s.runState := by
  cases h with
  | prn operand => exact .inr ⟨_, congrArg Instr.prn operand, rfl, rfl⟩
  | _ => exact .inl rfl

/-- Only `PUSH` and `CALL` store, each in the cell below SP, which exists (R40, R81, R83). -/
theorem Completed.mem_cases (h : Completed s i t) :
    t.mem = s.mem ∨
      (i.handler = .push ∨ i.handler = .call) ∧ s.sp.toNat - 1 < s.cfg.memSize ∧
        ∃ v, t.mem = s.mem.write (s.sp.toNat - 1) v := by
  cases h with
  | push operand room cell =>
    have hsp := State.toNat_sp_decSp s room
    exact .inr ⟨.inl rfl, hsp ▸ cell, _, congrArg (s.mem.write · _) hsp⟩
  | call operand room ret cell =>
    have hsp := State.toNat_sp_decSp s room
    exact .inr ⟨.inr rfl, hsp ▸ cell, _, congrArg (s.mem.write · _) hsp⟩
  | _ => exact .inl rfl

/-- The default advance is past the instruction's own bytes (R66). -/
theorem Completed.pc_of_advance (h : Completed s i t) (ha : i.handler.signals.pcSignal = .advance) :
    t.pc = s.pc + BitVec.ofNat 9 (encode i).length := by
  cases h with
  | push | pop | prn | ldi | add | mul | cmp => rfl
  | hlt | ret | call | jmp | jeq | jne => cases ha

/-- A pc update leaves the pc itself, a byte of a register or the stack, or the pc past the instruction (R66). -/
theorem Completed.pc_cases (h : Completed s i t) :
    t.pc = s.pc ∨ (∃ v : Byte, t.pc = v.setWidth 9) ∨ t.pc = s.pc + BitVec.ofNat 9 (encode i).length := by
  cases h with
  | hlt => exact .inl rfl
  | ret | call | jmp => exact .inr (.inl ⟨_, rfl⟩)
  | push | pop | prn | ldi | add | mul | cmp => exact .inr (.inr rfl)
  | jeq => exact .inr ((em _).imp (fun he => ⟨_, if_pos he⟩) fun he => if_neg he)
  | jne => exact .inr ((em _).imp (fun he => ⟨_, if_pos he⟩) fun he => if_neg he)

/-- An instruction that lies in memory leaves a pc of at most 256 (R67). -/
theorem Completed.toNat_pc_le (h : Completed s i t) (hin : s.pc.toNat + (encode i).length ≤ 256) :
    t.pc.toNat ≤ 256 := by
  obtain hpc | ⟨v, hpc⟩ | hpc := h.pc_cases
  · rw [hpc]
    omega
  · rw [hpc, toNat_setWidth_pc]
    exact v.isLt.le
  · rwa [hpc, toNat_pc_add hin]

end Completions

end Sys2Proof.Machine

/-! The invariant (R7, R17, R23, R31, R61, R67): it holds after construction, and every step and every port keeps it. -/

namespace Sys2Proof.Machine

theorem State.inv_construct {c : Config} (hc : c.wf) : (State.construct c).Inv where
  cfg_wf := hc
  mem_wf := ⟨List.Pairwise.nil, nofun⟩
  mem_within := nofun
  pc_le := Nat.zero_le _
  record_iff := ⟨nofun, nofun⟩
  loading_fresh := fun _ => ⟨rfl, rfl, rfl⟩
  budget_kept := fun _ _ => Nat.zero_le _

/-- Settles O46: reset is construction under the configuration of this hardware. -/
theorem constructionMeetsTheInvariant : Obligations.ConstructionMeetsTheInvariant :=
  ⟨fun _ => State.inv_construct, State.inv_construct (by decide)⟩

/-- Fault entry keeps the invariant, whatever the record (R101). -/
theorem State.Inv.latchFault {s : State} (h : s.Inv) (record : FaultRecord) : (s.latchFault record).Inv where
  cfg_wf := h.cfg_wf
  mem_wf := h.mem_wf
  mem_within := h.mem_within
  pc_le := h.pc_le
  record_iff := ⟨fun _ => rfl, fun _ => rfl⟩
  loading_fresh := nofun
  budget_kept := h.budget_kept

theorem State.Inv.faultRecord_eq_none {s : State} (h : s.Inv) (hr : s.runState ≠ .faulted) : s.faultRecord = none :=
  Option.not_isSome_iff_eq_none.mp (mt h.record_iff.mp hr)

/-- The memory after a completed instruction keeps its canonical form and lists only cells that exist. -/
theorem Completed.mem_wf_within {s t : State} {i : Instr} (h : Completed s i t) (hi : s.Inv) :
    t.mem.wf ∧ t.mem.within t.cfg.memSize := by
  rw [h.cfg_eq]
  obtain hm | ⟨-, hcell, v, hm⟩ := h.mem_cases
  · rw [hm]
    exact ⟨hi.mem_wf, hi.mem_within⟩
  · rw [hm]
    exact ⟨Memory.wf_write hi.mem_wf _ v, Memory.within_write hi.mem_within hcell v⟩

/-- A completed instruction keeps the invariant, counted: it lay in memory, and the budget had room for it. -/
theorem State.Inv.completed {s u : State} {i : Instr} (h : s.Inv) (hr : s.runState = .running)
    (hb : s.budgetExceeded = false) (hf : s.fetch = .ok i) (hc : Completed s i u) :
    State.Inv { u with steps := u.steps + 1 } where
  cfg_wf := hc.cfg_eq ▸ h.cfg_wf
  mem_wf := (hc.mem_wf_within h).1
  mem_within := (hc.mem_wf_within h).2
  pc_le := hc.toNat_pc_le ((State.fetch_in_memory hf).trans h.cfg_wf.2.1)
  record_iff := by
    have hnone : u.faultRecord = none := hc.faultRecord_eq.trans (h.faultRecord_eq_none (by simp [hr]))
    simp [hnone, hc.runState_ne_faulted hr]
  loading_fresh := fun hl => absurd hl (hc.runState_ne_loading hr)
  budget_kept := fun b hbudget => by
    have hlt := State.budgetExceeded_eq_false_iff.mp hb b (hc.cfg_eq ▸ hbudget)
    rwa [← hc.steps_eq] at hlt

/-- Settles O47: a step latches a record, or completes one instruction that the budget had room for. -/
theorem stepKeepsTheInvariant : Obligations.StepKeepsTheInvariant := by
  intro s t h hstep
  obtain ⟨hr, ⟨-, rfl⟩ | ⟨-, k, -, rfl⟩ | ⟨hb, i, u, hf, hc, rfl⟩⟩ := step_next_cases hstep
  · exact h.latchFault _
  · exact h.latchFault _
  · exact h.completed hr hb hf hc

/-- `image` keeps the invariant: the bytes are written, they are too many, or nothing happens (R113, R114). -/
theorem State.Inv.loadImage {s : State} (h : s.Inv) (hl : s.runState = .loading) (bytes : List Byte) :
    (s.loadImage bytes).Inv := by
  by_cases hfit : bytes.length ≤ s.cfg.memSize
  · rw [State.loadImage_fits hl hfit]
    exact { h with
      mem_wf := Memory.wf_writeAll h.mem_wf 0 bytes
      mem_within := Memory.within_writeAll h.mem_within ((Nat.zero_add _).trans_le hfit) }
  · rw [State.loadImage_too_large hl (Nat.lt_of_not_le hfit)]
    exact h.latchFault _

/-- `budget` keeps the invariant: in `loading` no step has been counted (R116). -/
theorem State.Inv.setBudget {s : State} (h : s.Inv) (hl : s.runState = .loading) (b : Option Nat) :
    (s.setBudget b).Inv := by
  obtain ⟨-, hsteps, -⟩ := h.loading_fresh hl
  rw [State.setBudget, if_pos hl]
  exact { h with budget_kept := fun _ _ => hsteps.le.trans (Nat.zero_le _) }

/-- `run` keeps the invariant: it leaves `loading` without a record (R117). -/
theorem State.Inv.start {s : State} (h : s.Inv) (hl : s.runState = .loading) : s.start.Inv := by
  have hnone := h.faultRecord_eq_none (by simp [hl])
  rw [State.start, if_pos hl]
  exact { h with
    record_iff := by simp [hnone]
    loading_fresh := nofun }

/-- Settles O48: `construct` needs only the configuration; outside `loading` the other ports do nothing. -/
theorem portsKeepTheInvariant : Obligations.PortsKeepTheInvariant := by
  intro s event h
  by_cases hl : s.runState = .loading
  · cases event with
    | construct => exact State.inv_construct h.cfg_wf
    | image bytes => exact h.loadImage hl bytes
    | budget b => exact h.setBudget hl b
    | run => exact h.start hl
  · by_cases hc : event = .construct
    · subst hc
      exact State.inv_construct h.cfg_wf
    · rwa [State.port_not_loading hl hc]

end Sys2Proof.Machine

/-! The stack (R79 to R86): the completions of PUSH, POP, CALL and RET, their faults, and the laws that pair them. -/

namespace Sys2Proof.Machine

section StackBounds

variable {s : State}

/-- Below STACK_TOP the cell at SP exists, and SP does not wrap when it goes up (R7, R80). -/
theorem State.pop_bounds (hw : s.cfg.wf) (hroom : s.sp.toNat < s.cfg.stackTop.toNat) :
    s.sp.toNat < s.cfg.memSize ∧ s.sp.toNat < 255 := by
  obtain ⟨-, hmax, -, htop, -⟩ := hw
  omega

/-- The cell below an SP of at most STACK_TOP exists (R7, R79). -/
theorem State.decSp_lt_memSize (hw : s.cfg.wf) (hsp : s.sp ≠ 0) (htop : s.sp.toNat ≤ s.cfg.stackTop.toNat) :
    s.decSp.sp.toNat < s.cfg.memSize := by
  obtain ⟨-, -, -, hmax, -⟩ := hw
  rw [State.toNat_sp_decSp s hsp]
  omega

theorem State.toNat_sp_pos (hsp : s.sp ≠ 0) : 0 < s.sp.toNat :=
  Nat.pos_of_ne_zero fun h => hsp (BitVec.eq_of_toNat_eq h)

end StackBounds

/-! ### The completions -/

/-- Settles O18: the one store is to the cell below SP, after SP went down. -/
theorem pushStoresBelowSp : Obligations.PushStoresBelowSp := by
  intro r s hm hsp hcell
  have hdec := State.toNat_sp_decSp s hsp
  refine ⟨_, exec_of_completed (.push rfl hsp (hdec ▸ hcell)), hdec, regsKeptBut_decSp s, ?_, fun a ha => ?_, rfl, rfl,
    rfl, rfl, rfl, rfl, rfl⟩
  · exact (State.readCell_push hm hsp _ _).trans ((if_pos rfl).trans (s.readReg_decSp r))
  · exact (State.readCell_push hm hsp _ _).trans (if_neg ha)

/-- Settles O19: the register is written first, so that for R7 the popped byte goes up by one. -/
theorem popLoadsFromSp : Obligations.PopLoadsFromSp := by
  intro r s hw hroom
  obtain ⟨hcell, hwrap⟩ := State.pop_bounds hw hroom
  refine ⟨_, exec_of_completed (.pop rfl hroom hcell), fun hr => ⟨?_, ?_⟩, fun hr => ?_,
    regsKeptBut_writeReg_incSp s r _, memoryKept_of_mem_eq rfl, rfl, rfl, rfl, rfl, rfl, rfl, rfl⟩
  · rw [State.readReg_updatePc, State.readReg_incSp, if_neg hr, State.readReg_writeReg_same]
  · have hsp := s.sp_writeReg_other hr (s.readCell s.sp.toNat)
    exact (State.toNat_sp_incSp _ (hsp.symm ▸ hwrap)).trans (congrArg (·.toNat + 1) hsp)
  · subst hr
    have hsp : (s.writeReg spIndex (s.readCell s.sp.toNat)).incSp.sp = s.readCell s.sp.toNat + 1 := by
      rw [State.sp_incSp, State.sp, State.readReg_writeReg_same]
    exact (congrArg BitVec.toNat hsp).trans (BitVec.toNat_add _ _)

/-- Settles O20: the return address is below N, so it fits the pushed byte; the target is read after the push. -/
theorem callPushesTheReturnAddress : Obligations.CallPushesTheReturnAddress := by
  intro r s hw hm hsp hret hcell
  have hdec := State.toNat_sp_decSp s hsp
  have hbyte : (BitVec.ofNat 8 s.returnAddress).toNat = s.pc.toNat + 2 :=
    by
    obtain ⟨-, hmax, -⟩ := hw
    exact Nat.mod_eq_of_lt (hret.trans_le hmax)
  refine ⟨_, exec_of_completed (.call rfl hsp hret (hdec ▸ hcell)), hdec, regsKeptBut_decSp s, ?_, fun a ha => ?_, ?_,
    rfl, rfl, rfl, rfl, rfl, rfl⟩
  · exact (congrArg BitVec.toNat ((State.readCell_push hm hsp _ _).trans (if_pos rfl))).trans hbyte
  · exact (State.readCell_push hm hsp _ _).trans (if_neg ha)
  · have hpc := (toNat_setWidth_pc (s.decSp.readReg r)).trans (congrArg BitVec.toNat (s.readReg_decSp r))
    rw [apply_ite BitVec.toNat, ← State.sp_decSp, hdec] at hpc
    exact hpc

/-- Settles O21: the byte at SP is the pc, and SP does not wrap below the top. -/
theorem retPopsThePc : Obligations.RetPopsThePc := by
  intro s hw hroom
  obtain ⟨hcell, hwrap⟩ := State.pop_bounds hw hroom
  exact ⟨_, exec_of_completed (.ret hroom hcell), toNat_setWidth_pc _, s.toNat_sp_incSp hwrap, regsKeptBut_incSp s,
    memoryKept_of_mem_eq rfl, rfl, rfl, rfl, rfl, rfl, rfl⟩

/-! ### The faults -/

section StackFaults

variable {s : State}

theorem State.checkPushRoom_of_eq_zero (h : s.sp = 0) : s.checkPushRoom = .error .stackOverflow := if_pos h

theorem State.checkPushRoom_of_ne_zero (h : s.sp ≠ 0) : s.checkPushRoom = .ok () := if_neg h

theorem State.checkPopRoom_of_le (h : s.cfg.stackTop.toNat ≤ s.sp.toNat) : s.checkPopRoom = .error .stackUnderflow :=
  if_pos h

theorem State.checkAddress_of_le {a : Nat} (h : s.cfg.memSize ≤ a) :
    s.checkAddress a = .error .memoryAddressOutOfRange := if_neg (Nat.not_lt.mpr h)

/-- A push whose cell does not exist faults at the store (R81). -/
theorem State.push_of_le {value : State → Byte} (hsp : s.sp ≠ 0) (h : s.cfg.memSize ≤ s.sp.toNat - 1) :
    s.push value = .error .memoryAddressOutOfRange :=
  if_neg (Nat.not_lt.mpr (State.toNat_sp_decSp s hsp ▸ h))

end StackFaults

/-- Settles O22: the bound of the stack is the first check of each handler. -/
theorem stackBoundsFault : Obligations.StackBoundsFault := by
  refine fun r s => ⟨fun hzero => ⟨?_, ?_⟩, fun htop => ⟨?_, ?_⟩⟩
  · rw [exec, execPush, withReg_regOperand, State.checkPushRoom_of_eq_zero hzero]
    rfl
  · rw [exec, execCall, withReg_regOperand, State.checkPushRoom_of_eq_zero hzero]
    rfl
  · rw [exec, execPop, withReg_regOperand, State.checkPopRoom_of_le htop]
    rfl
  · rw [exec, execRet, State.checkPopRoom_of_le htop]
    rfl

/-- Settles O23: with room on the stack, the next check that fails is that of the return address or of the cell; both
raise the same fault. -/
theorem storeOutsideMemoryFaults : Obligations.StoreOutsideMemoryFaults := by
  intro r s hsp
  have hroom := State.checkPushRoom_of_ne_zero hsp
  have hreturn (hret : s.cfg.memSize ≤ s.returnAddress) :
      exec (.call (regOperand r)) s = .next (s.afterFault .memoryAddressOutOfRange s.opcodeAtPc) := by
    rw [exec, execCall, withReg_regOperand, hroom, State.checkAddress_of_le hret]
    rfl
  refine ⟨hreturn, fun hcell => ⟨?_, ?_⟩⟩
  · rw [exec, execPush, withReg_regOperand, hroom, State.push_of_le hsp hcell]
    rfl
  · by_cases hret : s.returnAddress < s.cfg.memSize
    · rw [exec, execCall, withReg_regOperand, hroom, State.checkAddress_ok_iff (u := ()) |>.mpr hret,
        State.push_of_le hsp hcell]
      rfl
    · exact hreturn (Nat.le_of_not_lt hret)

/-- An instruction that can complete from `running` does not fault. -/
theorem Completed.exec_ne_faulted {s t u : State} {i : Instr} (h : Completed s i u) (hr : s.runState = .running)
    (ht : t.runState = .faulted) : exec i s ≠ .next t := by
  intro hexec
  cases (exec_of_completed h).symm.trans hexec
  exact h.runState_ne_faulted hr ht

/-- Settles O24: where the stack has room the instruction completes, as the cell exists. -/
theorem stackFaultKindsAreThoseOfTheBounds : Obligations.StackFaultKindsAreThoseOfTheBounds := by
  intro r s t hw hr ht
  obtain ⟨hover, hunder⟩ := stackBoundsFault r s
  refine ⟨fun h => ?_, fun hn h => ?_⟩
  · by_cases hroom : s.sp.toNat < s.cfg.stackTop.toNat
    · have hcell := (State.pop_bounds hw hroom).1
      obtain h | h := h
      · exact absurd h ((Completed.pop rfl hroom hcell).exec_ne_faulted hr ht)
      · exact absurd h ((Completed.ret hroom hcell).exec_ne_faulted hr ht)
    · obtain ⟨hpop, hret⟩ := hunder (Nat.le_of_not_lt hroom)
      obtain h | h := h
      · exact Host.Outcome.next.inj (h.symm.trans hpop)
      · exact Host.Outcome.next.inj (h.symm.trans hret)
  · by_cases hzero : s.sp = 0
    · exact Host.Outcome.next.inj (h.symm.trans (hover hzero).1)
    · exact absurd h ((Completed.push rfl hzero (hn ▸ s.decSp.sp.isLt)).exec_ne_faulted hr ht)

/-! ### Stack laws (R85, R86) -/

/-- Settles O25: the pop reads the cell that the push stored to, and SP goes back up. -/
theorem popUndoesPush : Obligations.PopUndoesPush := by
  intro r q s hw hm hr hq hsp htop
  obtain ⟨t, hpush, htsp, htregs, htcell, -, -, -, -, htcfg, -⟩ :=
    pushStoresBelowSp r s hm hsp (State.toNat_sp_decSp s hsp ▸ State.decSp_lt_memSize hw hsp htop)
  have hpos := State.toNat_sp_pos hsp
  obtain ⟨u, hpop, hloaded, -, huregs, -⟩ := popLoadsFromSp q t (htcfg ▸ hw) (by rw [htcfg]; omega)
  obtain ⟨huq, husp⟩ := hloaded hq
  have hsp_eq : u.sp = s.sp := BitVec.eq_of_toNat_eq (by omega)
  refine ⟨t, u, hpush, hpop, ?_, hsp_eq, fun p hp => ?_⟩
  · rw [huq, htsp, htcell, if_neg hr]
  · by_cases hpsp : p = spIndex
    · exact hpsp ▸ hsp_eq
    · rw [huregs p (by simpa [hpsp] using hp), htregs p (by simpa using hpsp)]

/-- Settles O26: RET reads the return address that CALL stored, and SP goes back up. -/
theorem retReturnsBehindTheCall : Obligations.RetReturnsBehindTheCall := by
  intro r s t u hw hm _ htop hcall ht hucfg husp hucell
  obtain hc | ⟨k, -, rfl⟩ := exec_next_cases hcall
  · cases hc with
    | call _ hsp hret hcell =>
      have hdec := State.toNat_sp_decSp s hsp
      obtain ⟨t', hcall', htsp, -, htcell, -, -, -, -, htcfg, -⟩ :=
        callPushesTheReturnAddress r s hw hm hsp hret (hdec ▸ hcell)
      cases Host.Outcome.next.inj (hcall.symm.trans hcall')
      have hpos := State.toNat_sp_pos hsp
      obtain ⟨v, hretExec, hvpc, hvsp, hvregs, -⟩ :=
        retPopsThePc u (by rwa [hucfg, htcfg]) (by rw [hucfg, htcfg, husp]; omega)
      refine ⟨v, hretExec, ?_, BitVec.eq_of_toNat_eq ?_, hvregs⟩
      · rw [hvpc, hucell, htsp, htcell]
      · rw [hvsp, husp]
        omega
  · cases ht

end Sys2Proof.Machine

/-! Statements over all instructions: bad register operands, the memory frame, the control signals, the advance. -/

namespace Sys2Proof.Machine

/-! ### Bad register operands (R50, R65) -/

theorem checkreg_of_not_isRegIndex {b : Byte} (h : isRegIndex b = false) :
    checkreg b = .error .registerIndexOutOfRange := by
  obtain ⟨r, -, -, hr⟩ | ⟨he, -⟩ := checkreg_cases b
  · rw [hr] at h
    cases h
  · exact he

/-- The register operand is checked before the body runs (R65). -/
theorem withReg_of_not_isRegIndex {b : Byte} (h : isRegIndex b = false) (s : State)
    (handler : RegIdx → Except FaultKind State) :
    withReg b s handler = .next (s.takeFault .registerIndexOutOfRange) := by
  rw [withReg, checkreg_of_not_isRegIndex h]
  rfl

/-- Both register operands are checked before the ALU computes (R65). -/
theorem aluStep_of_not_isRegIndex {op : AluOp} {ra rb : Byte} (h : (isRegIndex ra && isRegIndex rb) = false)
    (s : State) : aluStep op ra rb s = .next (s.takeFault .registerIndexOutOfRange) := by
  obtain ⟨a, rfl, -, ha⟩ | ⟨-, ha⟩ := checkreg_cases ra
  · have hb : isRegIndex rb = false := by simpa [ha] using h
    rw [aluStep, withTwoRegs, withReg_regOperand, checkreg_of_not_isRegIndex hb]
    rfl
  · exact withReg_of_not_isRegIndex ha s _

/-- Settles O27: every register operand is checked first, alone or before the ALU. -/
theorem badRegisterOperandFaults : Obligations.BadRegisterOperandFaults := by
  intro i s h
  cases i with
  | hlt | ret => cases h
  | push | pop | prn | call | jmp | jeq | jne | ldi => exact withReg_of_not_isRegIndex h s _
  | add => exact aluStep_of_not_isRegIndex (op := .add) h s
  | mul => exact aluStep_of_not_isRegIndex (op := .mul) h s
  | cmp => exact aluStep_of_not_isRegIndex (op := .cmp) h s

/-! ### The memory frame (R37, R40) -/

/-- Settles O29: a completed instruction stores nothing, or is a `PUSH` or `CALL` and stores below SP; a fault stores
nothing. -/
theorem onlyPushAndCallStore : Obligations.OnlyPushAndCallStore := by
  intro i s t hm h
  obtain hc | ⟨k, -, rfl⟩ := exec_next_cases h
  · obtain hmem | ⟨hi, -, v, hmem⟩ := hc.mem_cases
    · exact ⟨fun _ a _ => memoryKept_of_mem_eq hmem a, fun _ _ => memoryKept_of_mem_eq hmem⟩
    · refine ⟨fun _ a ha => ?_, fun hpush hcall => absurd hi (by simp [hpush, hcall])⟩
      rw [State.readCell, hmem, Memory.read_write hm, if_neg ha]
      rfl
  · exact ⟨fun _ _ _ => rfl, fun _ _ => memoryKept_of_mem_eq rfl⟩

/-! ### The control signals (R54, R66) -/

theorem regOperand_some_inj {r a : RegIdx} (h : some (regOperand r) = some (regOperand a)) : r = a :=
  regOperand_inj (Option.some.inj h)

/-- A completed instruction does what its handler's row lists, column by column (R54). -/
theorem Completed.obeysSignals {s t : State} {i : Instr} (h : Completed s i t) (hm : s.mem.wf) :
    ObeysSignals i.handler.signals i.operands s t := by
  cases h with
  | hlt => exact ⟨fun _ _ => rfl, fun _ => rfl, memoryKept_of_mem_eq rfl, rfl⟩
  | ret => exact ⟨regsKeptBut_incSp s, fun _ => rfl, memoryKept_of_mem_eq rfl, toNat_setWidth_pc _⟩
  | push operand room cell =>
    exact ⟨regsKeptBut_decSp s, fun _ => rfl, fun a ha => (State.readCell_push hm room _ a).trans (if_neg ha), rfl⟩
  | pop operand =>
    subst operand
    exact ⟨fun a ha => regOperand_some_inj ha ▸ regsKeptBut_writeReg_incSp s _ _, fun _ => rfl,
      memoryKept_of_mem_eq rfl, rfl⟩
  | prn => exact ⟨fun _ _ => rfl, fun _ => rfl, memoryKept_of_mem_eq rfl, rfl⟩
  | call operand room ret cell =>
    subst operand
    exact ⟨regsKeptBut_decSp s, fun _ => rfl, fun a ha => (State.readCell_push hm room _ a).trans (if_neg ha),
      fun a ha => regOperand_some_inj ha ▸ toNat_setWidth_pc _⟩
  | jmp operand =>
    subst operand
    exact ⟨fun _ _ => rfl, fun _ => rfl, memoryKept_of_mem_eq rfl,
      fun a ha => regOperand_some_inj ha ▸ toNat_setWidth_pc _⟩
  | jeq operand =>
    subst operand
    refine ⟨fun _ _ => rfl, fun _ => rfl, memoryKept_of_mem_eq rfl, ?_⟩
    cases s.flags.e with
    | true => exact fun a ha => regOperand_some_inj ha ▸ toNat_setWidth_pc _
    | false => rfl
  | jne operand =>
    subst operand
    refine ⟨fun _ _ => rfl, fun _ => rfl, memoryKept_of_mem_eq rfl, ?_⟩
    cases s.flags.e with
    | true => rfl
    | false => exact fun a ha => regOperand_some_inj ha ▸ toNat_setWidth_pc _
  | ldi operand | add operand | mul operand =>
    subst operand
    exact ⟨fun a ha => regOperand_some_inj ha ▸ regsKeptBut_writeReg s _ _, fun _ => rfl, memoryKept_of_mem_eq rfl, rfl⟩
  | cmp => exact ⟨fun _ _ => rfl, nofun, memoryKept_of_mem_eq rfl, rfl⟩

/-- An instruction that answers a state other than `faulted` has completed. -/
theorem Completed.of_exec {s t : State} {i : Instr} (h : exec i s = .next t) (ht : t.runState ≠ .faulted) :
    Completed s i t := by
  obtain hc | ⟨k, -, rfl⟩ := exec_next_cases h
  · exact hc
  · exact absurd rfl ht

/-- Settles O30: an instruction that did not fault has completed. -/
theorem handlersObeyTheirControlSignals : Obligations.HandlersObeyTheirControlSignals :=
  fun _ _ _ hm _ h ht => (Completed.of_exec h ht).obeysSignals hm

/-- Settles O31: the 9-bit sum is the number, as the instruction lies within the at most 256 cells. -/
theorem advanceDoesNotWrap : Obligations.AdvanceDoesNotWrap := by
  intro i s t hw _ hin h ht ha
  obtain ⟨-, hmax, -⟩ := hw
  have hpc : t.pc.toNat = s.pc.toNat + (encode i).length := by
    rw [(Completed.of_exec h ht).pc_of_advance ha, toNat_pc_add (hin.trans hmax)]
  exact ⟨hpc, hpc ▸ hin⟩

end Sys2Proof.Machine

/-! The phases of a step (R60 to R65, R74): what is fetched at the pc, and what the step answers for it. -/

namespace Sys2Proof.Machine

/-! ### The record of a fault (R99) -/

/-- Where a byte can be fetched at the pc, the record has it. -/
theorem State.takeFault_of_lt {s : State} (h : s.pc.toNat < s.cfg.memSize) (k : FaultKind) :
    s.takeFault k = s.afterFault k (some (s.readCell s.pc.toNat)) := by
  rw [State.takeFault, State.opcodeAtPc, if_pos h]
  rfl

/-- Where the pc is outside memory, the record has no opcode. -/
theorem State.takeFault_of_le {s : State} (h : s.cfg.memSize ≤ s.pc.toNat) (k : FaultKind) :
    s.takeFault k = s.afterFault k none := by
  rw [State.takeFault, State.opcodeAtPc, if_neg (Nat.not_lt.mpr h)]
  rfl

/-! ### The instruction of a handler and its operand bytes -/

/-- What a handler makes of its operand bytes is an instruction of it, with as many of the bytes as it counts (R48). -/
theorem handlerInstr_some {h : Handler} {op1 op2 : Byte} {i : Instr} (hi : handlerInstr h op1 op2 = some i) :
    i.handler = h ∧ i.operands = [op1, op2].take h.operandCount := by
  cases h with
  | hlt | ret | push | pop | prn | call | jmp | jeq | jne | ldi =>
    cases hi
    exact ⟨rfl, rfl⟩
  | alu op =>
    cases op with
    | add | mul | cmp =>
      cases hi
      exact ⟨rfl, rfl⟩
    | other kind => cases hi

/-- Only a kind that the ALU does not have makes no instruction (R74). -/
theorem handlerInstr_none {h : Handler} {op1 op2 : Byte} (hi : handlerInstr h op1 op2 = none) :
    ∃ kind, h = .alu (.other kind) := by
  cases h with
  | hlt | ret | push | pop | prn | call | jmp | jeq | jne | ldi => cases hi
  | alu op =>
    cases op with
    | add | mul | cmp => cases hi
    | other kind => exact ⟨kind, rfl⟩

theorem not_isRegIndex_iff {b : Byte} : isRegIndex b = false ↔ 8 ≤ b.toNat := by
  simp [isRegIndex]

/-- The register checks of R60, by format, are the well-formedness of the instruction (R50, R65). -/
theorem handlerInstr_not_wellFormed {h : Handler} {op1 op2 : Byte} {i : Instr} (hi : handlerInstr h op1 op2 = some i)
    (hbad : h.format ≠ .n ∧ 8 ≤ op1.toNat ∨ h.format = .rr ∧ 8 ≤ op2.toNat) : WellFormed i = false := by
  simp only [← not_isRegIndex_iff] at hbad
  cases h with
  | hlt | ret => simp [Handler.format] at hbad
  | push | pop | prn | call | jmp | jeq | jne | ldi =>
    cases hi
    simpa [Handler.format, WellFormed] using hbad
  | alu op =>
    cases op with
    | add | mul | cmp =>
      cases hi
      exact Bool.and_eq_false_iff.mpr (by simpa [Handler.format] using hbad)
    | other kind => cases hi

/-! ### The fetch -/

section Fetch

variable {s : State} {h : Handler}

theorem State.length_bytesFrom (s : State) (a k : Nat) : (s.bytesFrom a k).length = min k (s.cfg.memSize - a) := by
  induction k generalizing a with
  | zero => simp
  | succ k ih =>
    by_cases ha : a < s.cfg.memSize
    · rw [State.bytesFrom_succ ha, List.length_cons, ih]
      omega
    · rw [State.bytesFrom_out ha, List.length_nil]
      omega

/-- The operand bytes that a handler counts, read from existing cells, and what is read behind them (R49). -/
theorem State.bytesFrom_two {a m : Nat} (hm : m ≤ 2) (hin : a + m ≤ s.cfg.memSize) :
    s.bytesFrom a 2 = [s.readCell a, s.readCell (a + 1)].take m ++ s.bytesFrom (a + m) (2 - m) := by
  match m with
  | 0 => rfl
  | 1 => exact State.bytesFrom_succ hin 1
  | 2 => rw [State.bytesFrom_succ (by omega), State.bytesFrom_succ (by omega)]; rfl

theorem State.fetch_of_le (ha : s.cfg.memSize ≤ s.pc.toNat) : s.fetch = .error .noOpcode := by
  rw [State.fetch, State.codeBytes, State.bytesFrom_out (Nat.not_lt.mpr ha)]
  rfl

/-- With the pc in memory, its byte is looked up and the operands come from the two cells behind it. -/
theorem State.fetch_of_lt (ha : s.pc.toNat < s.cfg.memSize) :
    s.fetch = (decode s.cfg.opcodeMap
      (s.readCell s.pc.toNat :: s.bytesFrom (s.pc.toNat + 1) 2)).map Prod.fst := by
  rw [State.fetch, State.codeBytes, State.bytesFrom_succ ha]

theorem State.fetch_of_lookup_none (ha : s.pc.toNat < s.cfg.memSize)
    (hl : s.cfg.opcodeMap.lookup (s.readCell s.pc.toNat) = none) :
    s.fetch = .error (.unrecognizedOpcode (s.readCell s.pc.toNat)) := by
  rw [State.fetch_of_lt ha, decode_cons_of_lookup_none hl]
  rfl

theorem State.fetch_of_lookup (ha : s.pc.toNat < s.cfg.memSize)
    (hl : s.cfg.opcodeMap.lookup (s.readCell s.pc.toNat) = some h) :
    s.fetch = (decodeOperands (s.readCell s.pc.toNat) h (s.bytesFrom (s.pc.toNat + 1) 2)).map Prod.fst := by
  rw [State.fetch_of_lt ha, decode_cons_of_lookup hl]

/-- An operand byte outside memory is a missing one (R64). -/
theorem State.fetch_of_missing (ha : s.pc.toNat < s.cfg.memSize)
    (hl : s.cfg.opcodeMap.lookup (s.readCell s.pc.toNat) = some h)
    (hout : s.cfg.memSize ≤ s.pc.toNat + h.operandCount) :
    s.fetch = .error (.missingOperand (s.readCell s.pc.toNat)) := by
  have hcount := h.format.operandCount_le_two
  have hshort : (s.bytesFrom (s.pc.toNat + 1) 2).length < h.operandCount := by
    rw [State.length_bytesFrom]
    omega
  rw [State.fetch_of_lookup ha hl, decodeOperands_missingOperand_iff.mpr hshort]
  rfl

/-- An instruction whose operand bytes lie in memory is fetched with them (R49, R62). -/
theorem State.fetch_of_handlerInstr {i : Instr} (hl : s.cfg.opcodeMap.lookup (s.readCell s.pc.toNat) = some h)
    (hin : s.pc.toNat + h.operandCount < s.cfg.memSize)
    (hi : handlerInstr h (s.readCell (s.pc.toNat + 1)) (s.readCell (s.pc.toNat + 2)) = some i) : s.fetch = .ok i := by
  obtain ⟨rfl, hoperands⟩ := handlerInstr_some hi
  have hbytes := State.bytesFrom_two (s := s) (a := s.pc.toNat + 1) i.handler.format.operandCount_le_two
    (by rw [Handler.operandCount] at hin; omega)
  rw [State.fetch_of_lookup (by omega) hl, hbytes]
  exact congrArg (Except.map Prod.fst) (hoperands ▸ decodeOperands_operands _ i _)

/-- An operation kind that the ALU does not have is fetched with its operands (R74). -/
theorem State.fetch_of_other {kind : Nat}
    (hl : s.cfg.opcodeMap.lookup (s.readCell s.pc.toNat) = some (.alu (.other kind)))
    (hin : s.pc.toNat + 2 < s.cfg.memSize) :
    s.fetch = .error (.unsupportedAlu kind (s.readCell (s.pc.toNat + 1)) (s.readCell (s.pc.toNat + 2))) := by
  rw [State.fetch_of_lookup (by omega) hl, State.bytesFrom_two (m := 2) (by omega) (by omega)]
  rfl

end Fetch

end Sys2Proof.Machine

/-! The step, phase by phase (R60, R70): each phase that stops the step, and the step that reaches the handler. -/

namespace Sys2Proof.Machine

/-! ### Another ALU kind (R74) -/

/-- After its register checks, a kind that the ALU does not have faults. -/
theorem aluStep_other_regOperand (kind : Nat) (a b : RegIdx) (s : State) :
    aluStep (.other kind) (regOperand a) (regOperand b) s = .next (s.takeFault .unsupportedAluOperation) := by
  rw [aluStep, withTwoRegs_regOperand]
  rfl

theorem eq_regOperand_of_isRegIndex {b : Byte} (h : isRegIndex b = true) : ∃ r, b = regOperand r := by
  obtain ⟨r, hr, -⟩ | ⟨-, hn⟩ := checkreg_cases b
  · exact ⟨r, hr⟩
  · cases hn.symm.trans h

/-- The two ends of another ALU kind: a bad register operand, or the kind itself (R65, R74). -/
theorem aluStep_other_cases (kind : Nat) (ra rb : Byte) (s : State) :
    (isRegIndex ra && isRegIndex rb) = false ∧
        aluStep (.other kind) ra rb s = .next (s.takeFault .registerIndexOutOfRange) ∨
      aluStep (.other kind) ra rb s = .next (s.takeFault .unsupportedAluOperation) := by
  cases h : isRegIndex ra && isRegIndex rb with
  | false => exact .inl ⟨rfl, aluStep_of_not_isRegIndex h s⟩
  | true =>
    obtain ⟨ha, hb⟩ := Bool.and_eq_true_iff.mp h
    obtain ⟨a, rfl⟩ := eq_regOperand_of_isRegIndex ha
    obtain ⟨b, rfl⟩ := eq_regOperand_of_isRegIndex hb
    exact .inr (aluStep_other_regOperand kind a b s)

/-! ### One lemma per phase -/

/-- Phase 1: a used-up budget (R61). -/
theorem step_of_budgetExceeded {s : State} (hr : s.runState = .running) (hb : s.budgetExceeded = true) :
    step s = .next (s.afterFault .stepBudgetExceeded none) := by
  simp only [step, hr, hb]
  rfl

section Phases

variable {s : State} {h : Handler} (hr : s.runState = .running) (hb : s.budgetExceeded = false)
include hr hb

/-- Phase 2: a pc outside memory (R62). -/
theorem step_of_le (ha : s.cfg.memSize ≤ s.pc.toNat) :
    step s = .next (s.afterFault .memoryAddressOutOfRange none) := by
  rw [step_of_fetch_error hr hb (State.fetch_of_le ha), ← State.takeFault_of_le ha]
  rfl

/-- Phase 3: a byte without a row (R63). -/
theorem step_of_lookup_none (ha : s.pc.toNat < s.cfg.memSize)
    (hl : s.cfg.opcodeMap.lookup (s.readCell s.pc.toNat) = none) :
    step s = .next (s.afterFault .unrecognizedOpcode (some (s.readCell s.pc.toNat))) := by
  rw [step_of_fetch_error hr hb (State.fetch_of_lookup_none ha hl), ← State.takeFault_of_lt ha]
  rfl

/-- Phase 4: an operand byte outside memory (R64). -/
theorem step_of_missing (ha : s.pc.toNat < s.cfg.memSize)
    (hl : s.cfg.opcodeMap.lookup (s.readCell s.pc.toNat) = some h)
    (hout : s.cfg.memSize ≤ s.pc.toNat + h.operandCount) :
    step s = .next (s.afterFault .memoryAddressOutOfRange (some (s.readCell s.pc.toNat))) := by
  rw [step_of_fetch_error hr hb (State.fetch_of_missing ha hl hout), ← State.takeFault_of_lt ha]
  rfl

/-- A fetched instruction runs and is counted (R69). -/
theorem step_eq_countStep {i : Instr} (hf : s.fetch = .ok i) : step s = countStep (exec i s) := by
  simp only [step, hr, hb, hf]
  rfl

variable (hl : s.cfg.opcodeMap.lookup (s.readCell s.pc.toNat) = some h)
  (hin : s.pc.toNat + h.operandCount < s.cfg.memSize)
include hl hin

/-- Phase 5: a register operand of 8 or more, of an instruction or of another ALU kind (R65). -/
theorem step_of_bad_register
    (hbad : h.format ≠ .n ∧ 8 ≤ (s.readCell (s.pc.toNat + 1)).toNat ∨
      h.format = .rr ∧ 8 ≤ (s.readCell (s.pc.toNat + 2)).toNat) :
    step s = .next (s.afterFault .registerIndexOutOfRange (some (s.readCell s.pc.toNat))) := by
  rw [← State.takeFault_of_lt (by omega)]
  cases hi : handlerInstr h (s.readCell (s.pc.toNat + 1)) (s.readCell (s.pc.toNat + 2)) with
  | some i =>
    rw [step_eq_countStep hr hb (State.fetch_of_handlerInstr hl hin hi),
      badRegisterOperandFaults i s (handlerInstr_not_wellFormed hi hbad)]
    rfl
  | none =>
    obtain ⟨kind, rfl⟩ := handlerInstr_none hi
    rw [step_of_fetch_error hr hb (State.fetch_of_other hl hin)]
    refine aluStep_of_not_isRegIndex (op := .other kind) (Bool.and_eq_false_iff.mpr ?_) s
    simpa [Handler.format, not_isRegIndex_iff] using hbad

/-- Phase 5: good register operands of another ALU kind (R74). -/
theorem step_of_other {kind : Nat} (hk : h = .alu (.other kind))
    (hgood : (s.readCell (s.pc.toNat + 1)).toNat < 8 ∧ (s.readCell (s.pc.toNat + 2)).toNat < 8) :
    step s = .next (s.afterFault .unsupportedAluOperation (some (s.readCell s.pc.toNat))) := by
  subst hk
  rw [step_of_fetch_error hr hb (State.fetch_of_other hl hin), ← State.takeFault_of_lt (by omega)]
  obtain ⟨hbad, -⟩ | halu :=
    aluStep_other_cases kind (s.readCell (s.pc.toNat + 1)) (s.readCell (s.pc.toNat + 2)) s
  · simp [isRegIndex, hgood] at hbad
  · exact halu

end Phases

/-! ### The step is the pseudocode -/

theorem State.budgetExceeded_eq_any (s : State) :
    s.budgetExceeded = s.cfg.budget.any fun b => decide (s.steps ≥ b) := by
  unfold State.budgetExceeded
  cases s.cfg.budget <;> rfl

/-- Settles O33: each branch of the pseudocode is one of the phases above. -/
theorem stepIsThePseudocodeOfTheSpec : Obligations.StepIsThePseudocodeOfTheSpec := by
  intro s hr
  simp only [stepR60, ← State.budgetExceeded_eq_any]
  split
  case isTrue hb => exact step_of_budgetExceeded hr hb
  case isFalse hb =>
  have hb : s.budgetExceeded = false := by simpa using hb
  split
  case isTrue ha => exact step_of_le hr hb ha
  case isFalse ha =>
  have ha : s.pc.toNat < s.cfg.memSize := Nat.lt_of_not_le ha
  split
  case h_1 hl => exact step_of_lookup_none hr hb ha hl
  case h_2 h hl =>
  have hcount : h.operandCount ≤ 2 := h.format.operandCount_le_two
  split
  case isTrue hmissing => exact step_of_missing hr hb ha hl (by omega)
  case isFalse hfirst =>
  split
  case isTrue hmissing => exact step_of_missing hr hb ha hl (by omega)
  case isFalse hsecond =>
  have hin : s.pc.toNat + h.operandCount < s.cfg.memSize := by omega
  split
  case isTrue hbad => exact step_of_bad_register hr hb hl hin (.inl hbad)
  case isFalse hgood1 =>
  split
  case isTrue hbad => exact step_of_bad_register hr hb hl hin (.inr hbad)
  case isFalse hgood2 =>
  split
  case h_1 hi =>
    obtain ⟨kind, rfl⟩ := handlerInstr_none hi
    exact step_of_other hr hb hl hin rfl (by simpa [Handler.format] using And.intro hgood1 hgood2)
  case h_2 i hi => exact step_eq_countStep hr hb (State.fetch_of_handlerInstr hl hin hi)

/-- Settles O35: the first two phases. -/
theorem budgetThenFetchAddressFault : Obligations.BudgetThenFetchAddressFault :=
  fun _ hr => ⟨fun b hbudget hb => step_of_budgetExceeded hr (State.budgetExceeded_eq_true_iff.mpr ⟨b, hbudget, hb⟩),
    fun hb ha => step_of_le hr (State.budgetExceeded_eq_false_iff.mpr hb) ha⟩

/-- Settles O32: the bytes at the pc are fetched and decode as the instruction. -/
theorem stepRunsTheDecodedInstruction : Obligations.StepRunsTheDecodedInstruction := by
  intro s i bytes hr hb hm hbytes hstored
  have hlen : bytes.length ≤ 3 := by
    obtain ⟨opcode, -, rfl⟩ := Option.map_eq_some_iff.mp hbytes
    rw [List.length_cons, Instr.length_operands]
    exact Nat.succ_le_succ i.handler.format.operandCount_le_two
  have hcode := State.bytesFrom_of_stored bytes hstored (3 - bytes.length)
  rw [Nat.add_sub_cancel' hlen] at hcode
  have hf : s.fetch = .ok i := by
    rw [State.fetch, State.codeBytes, hcode, decode_encodeWith hm hbytes]
    rfl
  exact step_of_fetch_ok hr (State.budgetExceeded_eq_false_iff.mpr hb) hf

end Sys2Proof.Machine

/-! Which fault a step raises (R60, R98, R99): each rejection of the decoder has its own kinds, and each comes from what
stands at the pc. -/

namespace Sys2Proof.Machine

/-- The fault kinds a rejection of the decoder ends in (R62 to R65, R74). -/
def rejectFaults : DecodeError → List FaultKind
  | .noOpcode => [.memoryAddressOutOfRange]
  | .unrecognizedOpcode _ => [.unrecognizedOpcode]
  | .missingOperand _ => [.memoryAddressOutOfRange]
  | .unsupportedAlu _ _ _ => [.registerIndexOutOfRange, .unsupportedAluOperation]

theorem State.rejectDecode_faults (s : State) (e : DecodeError) :
    ∃ k ∈ rejectFaults e, s.rejectDecode e = .next (s.takeFault k) := by
  cases e with
  | noOpcode | unrecognizedOpcode | missingOperand => exact ⟨_, List.mem_singleton_self _, rfl⟩
  | unsupportedAlu kind a b =>
    obtain ⟨-, h⟩ | h := aluStep_other_cases kind a b s
    · exact ⟨.registerIndexOutOfRange, by simp [rejectFaults], h⟩
    · exact ⟨.unsupportedAluOperation, by simp [rejectFaults], h⟩

/-- A step that ends in `faulted` took the budget's fault, a fault of the fetched instruction's handler, or one of the
decoder's rejection. -/
theorem step_faulted_cases {s t : State} (h : step s = .next t) (ht : t.runState = .faulted) :
    s.budgetExceeded = true ∧ t = s.takeBudgetFault ∨
      s.budgetExceeded = false ∧ ∃ k, t = s.takeFault k ∧
        (k ∈ handlerFaults ∨ ∃ e, s.fetch = .error e ∧ k ∈ rejectFaults e) := by
  obtain ⟨hr, hcases⟩ := step_next_cases h
  cases hb : s.budgetExceeded with
  | true => exact .inl ⟨rfl, Host.Outcome.next.inj (h.symm.trans (step_of_budgetExceeded hr hb))⟩
  | false =>
    refine .inr ⟨rfl, ?_⟩
    cases hf : s.fetch with
    | error e =>
      obtain ⟨k, hk, hreject⟩ := s.rejectDecode_faults e
      rw [step_of_fetch_error hr hb hf, hreject] at h
      exact ⟨k, (Host.Outcome.next.inj h).symm, .inr ⟨e, rfl, hk⟩⟩
    | ok i =>
      obtain ⟨u, hu⟩ := exec_answers i s
      rw [step_eq_countStep hr hb hf, hu] at h
      cases h
      obtain hc | ⟨k, hk, rfl⟩ := exec_next_cases hu
      · rw [State.countCompleted_of_ne (hc.runState_ne_faulted hr)] at ht
        exact absurd ht (hc.runState_ne_faulted hr)
      · exact ⟨k, State.countCompleted_takeFault s k, .inl hk⟩

/-! ### What the decoder rejects -/

theorem takeOne_error {opcode : Byte} {mk : Byte → Instr} {bytes : List Byte} {e : DecodeError}
    (h : takeOne opcode mk bytes = .error e) : e = .missingOperand opcode := by
  cases bytes with
  | nil => exact (Except.error.inj h).symm
  | cons a l => cases h

theorem takeTwo_error {opcode : Byte} {mk : Byte → Byte → Except DecodeError Instr} {bytes : List Byte}
    {e : DecodeError} (h : takeTwo opcode mk bytes = .error e) : e = .missingOperand opcode ∨ ∃ a b, mk a b = .error e := by
  match bytes with
  | [] | [_] => exact .inl (Except.error.inj h).symm
  | a :: b :: l =>
    refine .inr ⟨a, b, ?_⟩
    cases hm : mk a b with
    | ok i => simp [takeTwo, hm] at h
    | error e' => simpa [takeTwo, hm] using h

/-- Behind a recognized opcode the decoder rejects a missing operand, or a kind the ALU does not have (R64, R74). -/
theorem decodeOperands_error {opcode : Byte} {h : Handler} {bytes : List Byte} {e : DecodeError}
    (hd : decodeOperands opcode h bytes = .error e) :
    e = .missingOperand opcode ∨ ∃ kind a b, h = .alu (.other kind) ∧ e = .unsupportedAlu kind a b := by
  cases h with
  | hlt | ret => cases hd
  | push | pop | prn | call | jmp | jeq | jne => exact .inl (takeOne_error hd)
  | ldi =>
    obtain he | ⟨a, b, hmk⟩ := takeTwo_error (mk := fun r v => .ok (.ldi r v)) hd
    · exact .inl he
    · cases hmk
  | alu op =>
    obtain he | ⟨a, b, hmk⟩ := takeTwo_error hd
    · exact .inl he
    · cases op with
      | add | mul | cmp => cases hmk
      | other kind => exact .inr ⟨kind, a, b, rfl, (Except.error.inj hmk).symm⟩

/-- Which faults a rejected fetch can end in, by what the map has for the byte at the pc. -/
theorem State.fetch_error_faults {s : State} {e : DecodeError} {k : FaultKind} (hf : s.fetch = .error e)
    (hk : k ∈ rejectFaults e) :
    k = .memoryAddressOutOfRange ∨
      k = .unrecognizedOpcode ∧ s.cfg.opcodeMap.lookup (s.readCell s.pc.toNat) = none ∨
      (k = .registerIndexOutOfRange ∨ k = .unsupportedAluOperation) ∧
        ∃ kind, s.cfg.opcodeMap.lookup (s.readCell s.pc.toNat) = some (.alu (.other kind)) := by
  by_cases ha : s.pc.toNat < s.cfg.memSize
  · cases hl : s.cfg.opcodeMap.lookup (s.readCell s.pc.toNat) with
    | none =>
      cases (State.fetch_of_lookup_none ha hl).symm.trans hf
      exact .inr (.inl ⟨List.mem_singleton.mp hk, rfl⟩)
    | some h =>
      rw [State.fetch_of_lookup ha hl] at hf
      cases hd : decodeOperands (s.readCell s.pc.toNat) h (s.bytesFrom (s.pc.toNat + 1) 2) with
      | ok p =>
        rw [hd] at hf
        cases hf
      | error e' =>
        rw [hd] at hf
        cases hf
        obtain rfl | ⟨kind, a, b, rfl, rfl⟩ := decodeOperands_error hd
        · exact .inl (List.mem_singleton.mp hk)
        · exact .inr (.inr ⟨by simpa [rejectFaults] using hk, kind, rfl⟩)
  · cases (State.fetch_of_le (Nat.le_of_not_lt ha)).symm.trans hf
    exact .inl (List.mem_singleton.mp hk)

/-- Settles O34: a byte with a row is rejected for its operands or its kind only, and no handler raises this fault. -/
theorem unrecognizedOpcodeFaults : Obligations.UnrecognizedOpcodeFaults := by
  intro s hr hb ha
  have hb := State.budgetExceeded_eq_false_iff.mpr hb
  refine ⟨step_of_lookup_none hr hb ha, fun h hl t k p o hstep ht hrecord hk => ?_⟩
  obtain ⟨hb', -⟩ | ⟨-, k', rfl, hcause⟩ := step_faulted_cases hstep ht
  · simp [hb] at hb'
  · obtain rfl : k' = k := congrArg FaultRecord.kind (Option.some.inj hrecord)
    subst hk
    obtain hmem | ⟨e, hf, hmem⟩ := hcause
    · simp [handlerFaults] at hmem
    · simpa [hl] using State.fetch_error_faults hf hmem

/-- The map of this hardware routes no other kind to the ALU (R52, R74). -/
theorem lookup_defaultOpcodeMap_ne_other (b : Byte) (kind : Nat) :
    defaultOpcodeMap.lookup b ≠ some (.alu (.other kind)) := by
  intro hl
  obtain ⟨l₁, l₂, hmap, -⟩ := List.lookup_eq_some_iff.mp hl
  have hmem : (b, Handler.alu (.other kind)) ∈ defaultOpcodeMap := hmap ▸ List.mem_append_cons_self
  simp [defaultOpcodeMap] at hmem

/-- Settles O36: the last check before the handler, and a kind that no row of the default map has. -/
theorem unsupportedAluKindFaults : Obligations.UnsupportedAluKindFaults := by
  refine ⟨fun s kind a b hr hb hin hl ha hb' => ?_, fun s t p o hmap hstep ht hrecord => ?_⟩
  · refine step_of_other hr (State.budgetExceeded_eq_false_iff.mpr hb) hl hin rfl ?_
    rw [ha, hb', toNat_regOperand, toNat_regOperand]
    exact ⟨a.isLt, b.isLt⟩
  · obtain ⟨-, rfl⟩ | ⟨-, k, rfl, hcause⟩ := step_faulted_cases hstep ht
    · cases hrecord
    · cases hrecord
      obtain hmem | ⟨e, hf, hmem⟩ := hcause
      · simp [handlerFaults] at hmem
      · obtain h | ⟨h, -⟩ | ⟨-, kind, hl⟩ := State.fetch_error_faults hf hmem
        · cases h
        · cases h
        · exact lookup_defaultOpcodeMap_ne_other _ kind (hmap ▸ hl)

/-- No step raises the loader's fault, nor the budget's once the budget check has passed (R61, R98, R114). -/
theorem stepFaults_ne {k : FaultKind} (h : k ∈ stepFaults) : k ≠ .programTooLarge ∧ k ≠ .stepBudgetExceeded := by
  revert h
  cases k <;> decide

/-- Settles O38: the budget's fault has no opcode; every other has the byte at the pc, where the pc is in memory. -/
theorem faultRecordNamesTheInstruction : Obligations.FaultRecordNamesTheInstruction := by
  intro s t h ht
  obtain ⟨hr, ⟨-, rfl⟩ | ⟨-, k, hk, rfl⟩ | ⟨-, i, u, -, hc, rfl⟩⟩ := step_next_cases h
  · exact ⟨.stepBudgetExceeded, nofun, rfl⟩
  · obtain ⟨hload, hbudget⟩ := stepFaults_ne hk
    refine ⟨k, hload, ?_⟩
    by_cases ha : s.pc.toNat < s.cfg.memSize
    · rw [if_neg (by simp [hbudget, ha]), State.takeFault_of_lt ha]
      rfl
    · rw [if_pos (.inr (Nat.le_of_not_lt ha)), State.takeFault_of_le (Nat.le_of_not_lt ha)]
      rfl
  · exact absurd ht (hc.runState_ne_faulted hr)

end Sys2Proof.Machine

/-! What a step keeps and counts (R69, R72, R107), and a run under a budget (R61, R72). -/

namespace Sys2Proof.Machine

/-- Settles O39: a fault counts nothing, a completed instruction one. -/
theorem completedStepCountsOne : Obligations.CompletedStepCountsOne := by
  intro s t h
  obtain ⟨hr, ⟨-, rfl⟩ | ⟨-, k, -, rfl⟩ | ⟨-, i, u, -, hc, rfl⟩⟩ := step_next_cases h
  · rfl
  · rfl
  · rw [if_neg (hc.runState_ne_faulted hr)]
    exact congrArg (· + 1) hc.steps_eq

/-- From `running` there is a step (R72). -/
theorem step_answers {s : State} (hr : s.runState = .running) : ∃ t, step s = .next t := by
  cases hb : s.budgetExceeded with
  | true => exact ⟨_, step_of_budgetExceeded hr hb⟩
  | false =>
    cases hf : s.fetch with
    | ok i =>
      obtain ⟨u, -, hstep⟩ := step_of_fetch_ok hr hb hf
      exact ⟨_, hstep⟩
    | error e =>
      obtain ⟨k, -, hk⟩ := s.rejectDecode_faults e
      exact ⟨_, (step_of_fetch_error hr hb hf).trans hk⟩

/-- Settles O40: a fault is no halt, and only `HLT` completes in `halted`. -/
theorem runningStepCompletesOrFaults : Obligations.RunningStepCompletesOrFaults := by
  intro s hr
  obtain ⟨t, h⟩ := step_answers hr
  refine ⟨t, h, ?_⟩
  obtain ⟨-, ⟨hb, rfl⟩ | ⟨-, k, hk, rfl⟩ | ⟨-, i, u, hf, hc, rfl⟩⟩ := step_next_cases h
  · obtain ⟨b, hbudget, -⟩ := State.budgetExceeded_eq_true_iff.mp hb
    exact ⟨nofun, nofun, fun hnone => by simp [hnone] at hbudget⟩
  · refine ⟨nofun, nofun, fun _ _ p o hrecord => ?_⟩
    cases hrecord
    exact (stepFaults_ne hk).2 rfl
  · refine ⟨hc.runState_ne_loading hr, fun hhalted => ?_, fun _ ht => absurd ht (hc.runState_ne_faulted hr)⟩
    obtain ⟨rfl, rfl⟩ | hkept := hc.halts_or_keeps_runState
    · exact ⟨hf, rfl⟩
    · cases hr.symm.trans (hkept.symm.trans hhalted)

/-- Settles O42: a fault keeps the output, and `PRN` alone completes with more of it. -/
theorem outputGrowsOnlyByPrn : Obligations.OutputGrowsOnlyByPrn := by
  intro s t h
  obtain ⟨hr, ⟨-, rfl⟩ | ⟨-, k, -, rfl⟩ | ⟨-, i, u, hf, hc, rfl⟩⟩ := step_next_cases h
  · exact .inl rfl
  · exact .inl rfl
  · obtain hkept | ⟨r, rfl, hout, hrun⟩ := hc.output_cases
    · exact .inl hkept
    · exact .inr ⟨r, hf, hout, hrun.trans hr⟩

theorem step_cfg_eq {s t : State} (h : step s = .next t) : t.cfg = s.cfg := by
  obtain ⟨-, ⟨-, rfl⟩ | ⟨-, k, -, rfl⟩ | ⟨-, i, u, -, hc, rfl⟩⟩ := step_next_cases h
  · rfl
  · rfl
  · exact hc.cfg_eq

theorem State.loadImage_cfg (s : State) (bytes : List Byte) : (s.loadImage bytes).cfg = s.cfg := by
  unfold State.loadImage
  split
  · split <;> rfl
  · rfl

theorem State.start_cfg (s : State) : s.start.cfg = s.cfg := by
  unfold State.start
  split <;> rfl

/-- Settles O43: the budget port in `loading` is the only one that writes the configuration. -/
theorem configurationNeverChanges : Obligations.ConfigurationNeverChanges := by
  refine ⟨fun s t => step_cfg_eq, fun s event => ?_⟩
  cases event with
  | construct => exact .inl rfl
  | image bytes => exact .inl (s.loadImage_cfg bytes)
  | run => exact .inl s.start_cfg
  | budget b =>
    by_cases hl : s.runState = .loading
    · exact .inr ⟨b, rfl, hl, congrArg State.cfg (if_pos hl)⟩
    · exact .inl (congrArg State.cfg (State.setBudget_not_loading hl))

/-! ### A run under a budget -/

/-- Under a budget with `n` instructions left, a run ends within `n + 1` steps: each step ends it, or counts one. -/
theorem run_ends_within (n : Nat) {s : State} {b : Nat} (hr : s.runState = .running) (hbudget : s.cfg.budget = some b)
    (hn : s.steps + n = b) :
    ∃ (k : Nat) (t : State), k ≤ n + 1 ∧ Host.Core.run Sys2Proof.core k s = .next t ∧ t.Terminal ∧ t.steps ≤ b := by
  induction n generalizing s with
  | zero =>
    have hb := State.budgetExceeded_eq_true_iff.mpr ⟨b, hbudget, hn.ge⟩
    exact ⟨1, _, Nat.le_refl 1, core_run_succ (step_of_budgetExceeded hr hb) 0, .inr rfl, hn.le⟩
  | succ n ih =>
    obtain ⟨t, h, hloading, -⟩ := runningStepCompletesOrFaults s hr
    have hsteps : t.steps ≤ b := by
      rw [completedStepCountsOne s t h]
      split <;> omega
    cases ht : t.runState with
    | loading => exact absurd ht hloading
    | halted => exact ⟨1, t, by omega, core_run_succ h 0, .inl ht, hsteps⟩
    | faulted => exact ⟨1, t, by omega, core_run_succ h 0, .inr ht, hsteps⟩
    | running =>
      have hcount : t.steps = s.steps + 1 := by rw [completedStepCountsOne s t h, if_neg (by simp [ht])]
      obtain ⟨k, u, hk, hrun, hend⟩ := ih ht (step_cfg_eq h ▸ hbudget) (by omega)
      exact ⟨k + 1, u, by omega, (core_run_succ h k).trans hrun, hend⟩

/-- Settles O45: there are `B - steps` instructions left. -/
theorem budgetBoundsTheRun : Obligations.BudgetBoundsTheRun :=
  fun s b hr hbudget hle => run_ends_within (b - s.steps) hr hbudget (Nat.add_sub_cancel' hle)

/-! ### A stored byte runs next (R45, R121) -/

/-- A completed `PUSH` of a register stores its byte below SP, for R7 the decremented SP (R81). -/
theorem Completed.mem_of_push {s t : State} {r : RegIdx} (h : Completed s (.push (regOperand r)) t) :
    s.sp ≠ 0 ∧ s.sp.toNat - 1 < s.cfg.memSize ∧
      t.mem = s.mem.write (s.sp.toNat - 1) (if r = spIndex then s.sp - 1 else s.readReg r) := by
  cases h with
  | push operand room cell =>
    cases regOperand_inj operand
    have hdec := State.toNat_sp_decSp s room
    refine ⟨room, hdec ▸ cell, ?_⟩
    rw [← hdec, ← State.readReg_decSp]
    rfl

/-- A completed `CALL` stores its return address below SP (R83). -/
theorem Completed.mem_of_call {s t : State} {b : Byte} (h : Completed s (.call b) t) :
    s.sp ≠ 0 ∧ s.sp.toNat - 1 < s.cfg.memSize ∧
      t.mem = s.mem.write (s.sp.toNat - 1) (BitVec.ofNat 8 s.returnAddress) := by
  cases h with
  | call operand room ret cell =>
    have hdec := State.toNat_sp_decSp s room
    refine ⟨room, hdec ▸ cell, ?_⟩
    rw [← hdec]
    rfl

/-- A completed `PUSH` or `CALL` stores below SP the byte that its rule names (R81, R83, D9, D10). -/
theorem Completed.mem_of_store {s t : State} {i : Instr} {v : Byte} (h : Completed s i t)
    (hv : (∃ r, i = .push (regOperand r) ∧ v = (if r = spIndex then s.sp - 1 else s.readReg r)) ∨
      ∃ r, i = .call (regOperand r) ∧ v.toNat = s.pc.toNat + 2) :
    s.sp ≠ 0 ∧ s.sp.toNat - 1 < s.cfg.memSize ∧ t.mem = s.mem.write (s.sp.toNat - 1) v := by
  obtain ⟨r, rfl, rfl⟩ | ⟨r, rfl, hret⟩ := hv
  · exact h.mem_of_push
  · obtain ⟨hsp, hcell, hmem⟩ := h.mem_of_call
    have hbyte : BitVec.ofNat 8 s.returnAddress = v := by
      rw [State.returnAddress, ← hret, BitVec.ofNat_toNat, BitVec.setWidth_eq]
    exact ⟨hsp, hcell, hbyte ▸ hmem⟩

section AfterStore

variable {s t : State} {v : Byte} (hm : s.mem.wf) (hsp : s.sp ≠ 0) (hcell : s.sp.toNat - 1 < s.cfg.memSize)
  (hcfg : t.cfg = s.cfg) (hmem : t.mem = s.mem.write (s.sp.toNat - 1) v) (hpc : t.pc.toNat = s.sp.toNat - 1)
include hm hsp hcell hcfg hmem hpc

/-- With the pc at the cell just stored below SP, the code bytes are the stored one and the cells behind it. -/
theorem State.codeBytes_of_store : t.readCell t.pc.toNat = v ∧ t.codeBytes = v :: s.bytesFrom s.sp.toNat 2 := by
  have hpos := State.toNat_sp_pos hsp
  have hread (a : Nat) : t.readCell a = if a = s.sp.toNat - 1 then v else s.readCell a := by
    rw [State.readCell, hmem, Memory.read_write hm]
    rfl
  have hv : t.readCell t.pc.toNat = v := by rw [hread, if_pos hpc]
  have hbehind : t.bytesFrom s.sp.toNat 2 = s.bytesFrom s.sp.toNat 2 :=
    State.bytesFrom_congr (by rw [hcfg]) (fun a ha => by rw [hread, if_neg (by omega)]) 2
  refine ⟨hv, ?_⟩
  rw [State.codeBytes, State.bytesFrom_succ (by rw [hcfg]; omega), hv, ← hbehind, hpc, Nat.sub_add_cancel hpos]

/-- The step after a store at the pc looks the stored byte up and runs what it decodes as (R45, R63). -/
theorem step_of_store (hr : t.runState = .running) (hb : t.budgetExceeded = false) :
    t.fetch = (decode s.cfg.opcodeMap (v :: s.bytesFrom s.sp.toNat 2)).map Prod.fst ∧
      (s.cfg.opcodeMap.lookup v = none → step t = .next (t.afterFault .unrecognizedOpcode (some v))) ∧
      ∀ i rest, decode s.cfg.opcodeMap (v :: s.bytesFrom s.sp.toNat 2) = .ok (i, rest) →
        ∃ u, exec i t = .next u ∧
          step t = .next (if u.runState = .faulted then u else { u with steps := u.steps + 1 }) := by
  obtain ⟨hread, hcode⟩ := State.codeBytes_of_store hm hsp hcell hcfg hmem hpc
  have hfetch : t.fetch = (decode s.cfg.opcodeMap (v :: s.bytesFrom s.sp.toNat 2)).map Prod.fst := by
    rw [State.fetch, hcode, hcfg]
  refine ⟨hfetch, fun hl => ?_, fun i rest hd => step_of_fetch_ok hr hb (by rw [hfetch, hd]; rfl)⟩
  have hstep := step_of_lookup_none hr hb (by rwa [hpc, hcfg]) (by rwa [hread, hcfg])
  rwa [hread] at hstep

end AfterStore

/-- Settles O44: a step that completes a `PUSH` or `CALL` has stored the byte, and the count keeps everything else. -/
theorem storedOpcodeRunsNext : Obligations.StoredOpcodeRunsNext := by
  intro s t v _ hm hstep hr hb hpc hv
  obtain ⟨-, ⟨-, rfl⟩ | ⟨-, k, -, rfl⟩ | ⟨-, i, u, hf, hc, rfl⟩⟩ := step_next_cases hstep
  · cases hr
  · cases hr
  · simp only [hf, Except.ok.injEq] at hv
    obtain ⟨hsp, hcell, hmem⟩ := hc.mem_of_store hv
    exact step_of_store hm hsp hcell hc.cfg_eq hmem hpc hr (State.budgetExceeded_eq_false_iff.mpr hb)

end Sys2Proof.Machine

/-! The ports (R10, R27, R98, R111 to R119). -/

namespace Sys2Proof.Machine

/-- Settles O49: `construct` is the constructed state under the configuration, read field by field. -/
theorem constructGivesTheConstructionValues : Obligations.ConstructGivesTheConstructionValues :=
  fun _ => ⟨_, rfl, rfl, rfl, rfl, rfl, rfl, rfl, rfl, rfl, rfl, rfl, fun _ => rfl, rfl, rfl, rfl, rfl⟩

/-- An image that fits, written to a constructed machine (R113). -/
theorem construct_image_fits {c : Config} {bytes : List Byte} (h : bytes.length ≤ c.memSize) :
    (State.construct c).port (.image bytes) = { State.construct c with mem := Memory.writeAll [] 0 bytes } :=
  State.loadImage_fits rfl h

/-- The cells of an image written to empty memory: its bytes, and the construction value behind them. -/
theorem read_writeAll_nil (bytes : List Byte) (a : Nat) :
    (Memory.writeAll [] 0 bytes).read a = (bytes[a]?).getD 0x00 := by
  rw [Memory.read_writeAll ⟨List.Pairwise.nil, nofun⟩, if_pos (Nat.zero_le a)]
  rfl

/-- Settles O50: the image is written from address 0 to memory that lists no cell. -/
theorem loadPlacesTheImage : Obligations.LoadPlacesTheImage := by
  refine ⟨fun c bytes h => ?_, fun s bytes hl => State.loadImage_not_loading hl⟩
  rw [construct_image_fits h]
  refine ⟨fun i b hb => ?_, fun i hi => ?_, rfl⟩
  · exact (read_writeAll_nil bytes i).trans (by rw [hb]; rfl)
  · exact (read_writeAll_nil bytes i).trans (by rw [List.getElem?_eq_none hi]; rfl)

/-- Settles O51: the loader compares the image's length with N before it writes. -/
theorem oversizedImageFaults : Obligations.OversizedImageFaults := by
  refine fun c bytes => ⟨fun h => State.loadImage_too_large rfl h, fun h => ?_⟩
  rw [construct_image_fits h.le]
  rfl

/-- Settles O52: each event in its order from the constructed state; `run` acts in `loading` only. -/
theorem bootRunsTheImageFromZero : Obligations.BootRunsTheImageFromZero := by
  intro s bytes b h
  have himage : (s.port .construct).port (.image bytes) =
      { State.construct s.cfg with mem := Memory.writeAll [] 0 bytes } := construct_image_fits h
  refine ⟨_, by rw [himage], rfl, rfl, rfl, rfl, rfl, fun i c hc => ?_, rfl⟩
  exact (read_writeAll_nil bytes i).trans (by rw [hc]; rfl)

/-- The flags byte is `0b00000LGE` (R27). -/
theorem Flags.toNat_toByte (f : Flags) :
    f.toByte.toNat = (if f.l then 4 else 0) + (if f.g then 2 else 0) + (if f.e then 1 else 0) := by
  obtain ⟨e, l, g⟩ := f
  cases e <;> cases l <;> cases g <;> rfl

/-- Settles O53: the status port shows the record's kind through its code. -/
theorem statusPortShowsCodesAndFlags : Obligations.StatusPortShowsCodesAndFlags := by
  refine ⟨rfl, fun s => ⟨fun record h => ?_, fun h => ?_, s.flags.toNat_toByte⟩⟩
  · rw [State.status, h]
    rfl
  · rw [State.status, h]
    rfl

end Sys2Proof.Machine
